-- ==== Sys2Proof/Word.lean ====
section
/-! DEFINITION. The word types of TLZ-CORE (00_scope.md R8, R9): every value is unsigned. -/

namespace Sys2Proof

/-- One byte of a port (20_memory.md R41). -/
abbrev Byte := BitVec 8

/-- One 16-bit token or length field (30_encoding.md R42, R55). -/
abbrev Half := BitVec 16

/-- One host register, REG_WIDTH = 32 (00_scope.md R8). -/
abbrev Reg := BitVec 32

end Sys2Proof
end

