-- ==== Sys2Proof/Syntax.lean ====
section
/-! DEFINITION. The instructions of spec/opcode_table.json: the two token kinds and the four host commands
(00_scope.md R3). -/

namespace Sys2Proof

/-- One constructor per row of the opcode table. Tokens carry the two fields of 30_encoding.md R55, host
commands the interrupt enable of 30_encoding.md R64. -/
inductive Instr where
  /-- `LIT`: `jump` raw bytes follow the token (30_encoding.md R59). -/
  | lit (jump : BitVec 11)
  /-- `BREF`: copy `count` bytes from `jump` bytes back in the output (30_encoding.md R60). -/
  | bref (count : BitVec 5) (jump : BitVec 11)
  /-- `ENCODE`, CTRL.OP = 0 (41_encoder.md R81). -/
  | encode (irqEn : Bool)
  /-- `DECODE`, CTRL.OP = 1 (42_decoder.md R86). -/
  | decode (irqEn : Bool)
  /-- `EST_COMP`, CTRL.OP = 2 (43_estimators.md R97). -/
  | estComp (irqEn : Bool)
  /-- `EST_DECOMP`, CTRL.OP = 3 (43_estimators.md R98). -/
  | estDecomp (irqEn : Bool)
  deriving DecidableEq, Repr

end Sys2Proof
end

