-- ==== Sys2Proof/WellFormed.lean ====
section
/-! DEFINITION. Which terms of Instr are instructions of the spec. -/

namespace Sys2Proof

/-- The one check the field widths do not make: a back-reference has `count >= 1` (30_encoding.md R58, R60). -/
def Instr.wellFormed : Instr → Bool
  | .lit _ => true
  | .bref count _ => count != 0
  | .encode _ => true
  | .decode _ => true
  | .estComp _ => true
  | .estDecomp _ => true

end Sys2Proof
end

