-- ==== Sys2Proof/Decode.lean ====
section
/-! DEFINITION. Decoding of tokens and CTRL words, then the encoder (30_encoding.md R55 to R64). -/

namespace Sys2Proof

/-- `le16(v)`: the two bytes of a 16-bit value, low byte first (00_scope.md R10). -/
def le16 (v : Half) : List Byte := [v.extractLsb' 0 8, v.extractLsb' 8 8]

/-- `rd16(b0, b1)` (00_scope.md R10). -/
def rd16 (b0 b1 : Byte) : Half := b0.setWidth 16 ||| (b1.setWidth 16 <<< 8)

/-- `count`, bits [4:0] of a token (30_encoding.md R55, R56). -/
def tokenCount (t : Half) : BitVec 5 := t.extractLsb' 0 5

/-- `jump`, bits [15:5] of a token (30_encoding.md R55, R56). -/
def tokenJump (t : Half) : BitVec 11 := t.extractLsb' 5 11

/-- `CTRL.OP`, bits [1:0] of a CTRL word (10_state.md R17). -/
def ctrlOp (w : Reg) : BitVec 2 := w.extractLsb' 0 2

/-- `CTRL.IRQ_EN`, bit [2] of a CTRL word (10_state.md R18). -/
def ctrlIrqEn (w : Reg) : Bool := w.getLsbD 2

/-- `CTRL.START`, bit [8] of a CTRL word (10_state.md R19). -/
def ctrlStart (w : Reg) : Bool := w.getLsbD 8

/-- The command codes of `CTRL.OP` (10_state.md R17). -/
def opEncode : BitVec 2 := 0
/-- See `opEncode`. -/
def opDecode : BitVec 2 := 1
/-- See `opEncode`. -/
def opEstComp : BitVec 2 := 2
/-- See `opEncode`. -/
def opEstDecomp : BitVec 2 := 3

/-- The two kinds of instruction word: a token of the container (30_encoding.md R55) and the 32-bit word the
host writes to CTRL (30_encoding.md R64). -/
inductive InstrWord where
  | token (t : Half)
  | ctrl (w : Reg)
  deriving DecidableEq, Repr

/-- Why bytes or a word are no instruction. -/
inductive DecodeError where
  /-- A CTRL word with bit [8] = 0 is no command (30_encoding.md R64). -/
  | noStart
  /-- Fewer than two bytes are left where a token should start (42_decoder.md R89). -/
  | truncatedToken
  deriving DecidableEq, Repr

/-- The kind of a token is selected by `count` alone (30_encoding.md R58), so every 16-bit value is a `LIT` or
a `BREF` (R63). -/
def decodeToken (t : Half) : Instr :=
  if tokenCount t = 0 then .lit (tokenJump t) else .bref (tokenCount t) (tokenJump t)

/-- The command of a CTRL word: bit [8] first, then bits [1:0]; bits [7:3] and [31:9] are ignored
(30_encoding.md R64). -/
def decodeCtrl (w : Reg) : Except DecodeError Instr :=
  if ctrlStart w then
    .ok (if ctrlOp w = opEncode then .encode (ctrlIrqEn w)
      else if ctrlOp w = opDecode then .decode (ctrlIrqEn w)
      else if ctrlOp w = opEstComp then .estComp (ctrlIrqEn w)
      else .estDecomp (ctrlIrqEn w))
  else .error .noStart

/-- The decoder of either kind of word. -/
def decode : InstrWord → Except DecodeError Instr
  | .token t => .ok (decodeToken t)
  | .ctrl w => decodeCtrl w

/-- The token at the head of a byte stream, and the rest of the stream (42_decoder.md R89). -/
def decodeTokenBytes : List Byte → Except DecodeError (Instr × List Byte)
  | b0 :: b1 :: rest => .ok (decodeToken (rd16 b0 b1), rest)
  | _ => .error .truncatedToken

/-- Token packing, `t = (jump << 5) | count` (30_encoding.md R57). -/
def tokenWord (count : BitVec 5) (jump : BitVec 11) : Half :=
  (jump.setWidth 16 <<< 5) ||| count.setWidth 16

/-- The CTRL word of a command: START in bit [8], IRQ_EN in bit [2], the code in bits [1:0], 0 in the reserved
bits (30_encoding.md R64). -/
def ctrlWord (op : BitVec 2) (irqEn : Bool) : Reg :=
  (1 <<< 8) ||| ((BitVec.ofBool irqEn).setWidth 32 <<< 2) ||| op.setWidth 32

/-- The word of a well-formed instruction (30_encoding.md R57, R59, R60, R64). -/
def encode : Instr → InstrWord
  | .lit jump => .token (tokenWord 0 jump)
  | .bref count jump => .token (tokenWord count jump)
  | .encode irqEn => .ctrl (ctrlWord opEncode irqEn)
  | .decode irqEn => .ctrl (ctrlWord opDecode irqEn)
  | .estComp irqEn => .ctrl (ctrlWord opEstComp irqEn)
  | .estDecomp irqEn => .ctrl (ctrlWord opEstDecomp irqEn)

/-- The bytes of an item's token in the container: `le16` of the token (30_encoding.md R57). -/
def tokenBytes (count : BitVec 5) (jump : BitVec 11) : List Byte := le16 (tokenWord count jump)

/-- Whether a word of the opcode table, given with `nbits` bits, is a CTRL word. The table's ctrl32 rows have 32
bits, its token16 rows 16. A ctrl32 row given with only the 16 bits up to its highest fixed one is known by
its being one of the eight command words of 30_encoding.md R64 (log 13). -/
def tableWordIsCtrl (nbits w : Nat) : Bool := 16 < nbits || (8 < nbits && w / 8 == 32)

/-- The instruction the decoder reads from a word of the opcode table. -/
def decodeTableWord (nbits w : Nat) : Option Instr :=
  match decode (if tableWordIsCtrl nbits w then .ctrl (BitVec.ofNat 32 w) else .token (BitVec.ofNat 16 w)) with
  | .ok i => some i
  | .error _ => none

end Sys2Proof
end

