-- ==== Sys2Proof/Config.lean ====
section
/-! DEFINITION. What an implementation fixes (00_scope.md R6, R7; 20_memory.md R40) and the free values
of the spec (10_state.md R32; 70_reset_and_hazards.md R117, R119). -/

namespace Sys2Proof.Config

/-- `HDR_LEN`, the container header's length in bytes (00_scope.md R6). -/
abbrev hdrLen : Nat := 7

/-- `MAGIC_LEN`, the magic tag's length in bytes (00_scope.md R6). -/
abbrev magicLen : Nat := 5

/-- `MAX_ORIG_LEN`, the largest representable original length (00_scope.md R6). -/
abbrev maxOrigLen : Nat := 65535

/-- `MAX_LIT`, the longest literal run in one literal token (00_scope.md R6). -/
abbrev maxLit : Nat := 2047

/-- `WINDOW`, the largest backward distance the encoder searches (00_scope.md R6, 41_encoder.md R74). -/
abbrev window : Nat := 2046

/-- `MAX_MATCH`, the hard cap on a match length (00_scope.md R6, 41_encoder.md R75). -/
abbrev maxMatch : Nat := 31

/-- `MIN_MATCH`, the shortest accepted match (00_scope.md R6, 41_encoder.md R77). -/
abbrev minMatch : Nat := 3

/-- `PORT_AW`, the width of a buffer port offset in bits (00_scope.md R8). -/
abbrev portAw : Nat := 32

/-- `PORT_MAP`, how the two ports map onto system memory (20_memory.md R40): the system address of each
port's offset 0, and how many bytes of system memory the port reaches from there up. DEDUCED from R10 (a
buffer is a contiguous byte region) and R47 (the base of each buffer is offset 0 of its port); the sizes are a
DESIGN CHOICE; see log 2. -/
structure PortMap where
  srcBase : Nat
  srcSize : Nat
  dstBase : Nat
  dstSize : Nat
  deriving DecidableEq, Repr, Inhabited

/-- The open parameters of the spec: `MAGIC` (00_scope.md R7) and `PORT_MAP` (20_memory.md R40). The state
carries them and no step changes them (log 1). -/
structure Params where
  magic   : Vector Byte 5
  portMap : PortMap
  deriving DecidableEq, Repr, Inhabited

/-- The parameters of the machine as it is delivered. No body: no value of `MAGIC` or `PORT_MAP` may be
assumed (00_scope.md R7, U1, U2). -/
opaque params : Params

/-- The draws of 10_state.md R32 and 70_reset_and_hazards.md R117, R119: values under no law (log 7). -/
opaque freeValue : Nat → Reg

/-- A draw of one byte (70_reset_and_hazards.md R117, R119): the low byte of a free value. -/
def freeByte (k : Nat) : Byte := (freeValue k).setWidth 8

end Sys2Proof.Config
end

