-- ==== Sys2Proof/Machine/State.lean ====
section
/-! DEFINITION. The state of TLZ-CORE (10_state.md R13 to R39), its reset value (70_reset_and_hazards.md R116), and
the reasons a step can stop. -/

namespace Sys2Proof.Machine

open Sys2Proof.Config (Params)

/-- The contents of one port: cells at strictly rising offsets, none equal to what an unlisted offset reads as
(`Memory.wf`, `Memory.unlisted`). -/
abbrev Memory := List Host.Cell

/-- The values of `STATUS.RESULT` (60_exceptions.md R101). Codes 8 to 15 are never produced. -/
inductive Result where
  | ok | unrepresentable | dstOverflow | badContainer | truncToken | truncLiteral | badDistance | outOverrun
  deriving DecidableEq, Repr

/-- The encoder's working registers (10_state.md R36). -/
structure EncRegs where
  /-- `L`, the original length. -/
  len      : Nat
  /-- `pos`, the input cursor. -/
  pos      : Nat
  /-- `run_start`, the start of the pending literal run. -/
  runStart : Nat
  /-- `best_len`, the length of the best match found at the last position examined. -/
  bestLen  : Nat
  /-- `best_jump`, the distance of that match. -/
  bestJump : Nat
  /-- `wr`, the number of container bytes written. -/
  wr       : Nat
  deriving DecidableEq, Repr

/-- The decoder's working registers (10_state.md R37; `p` is named by 42_decoder.md R86). -/
structure DecRegs where
  /-- `N`, the container length. -/
  len   : Nat
  /-- `D`, the declared original length. -/
  decl  : Nat
  /-- `bound`, the output bound (42_decoder.md R88). -/
  bound : Nat
  /-- `rd`, the container read cursor. -/
  rd    : Nat
  /-- `wr`, the output cursor. -/
  wr    : Nat
  /-- `p`, the offset of the current token. -/
  p     : Nat
  /-- `t`, the current token. -/
  tok   : Half
  deriving DecidableEq, Repr

/-- How far the running command has come. A command's first check (41_encoder.md R82, 42_decoder.md R87) is made
by the core's first turn; the working registers exist from then on. -/
inductive Work where
  | encodeStart
  | encoding (e : EncRegs)
  | decodeStart
  | decoding (d : DecRegs)
  | estComp
  | estDecomp
  deriving DecidableEq, Repr

/-- The phase of the core (10_state.md R14). -/
inductive Phase where
  | idle
  | busy (w : Work)
  deriving DecidableEq, Repr

/-- One host access (10_state.md R16; 20_memory.md R40). `width` is in bits; a register offset lies in the 32-byte
window (R15). -/
inductive HostAccess where
  | readReg (offset : BitVec 5) (width : Nat)
  | writeReg (offset : BitVec 5) (width : Nat) (value : Reg)
  | writeSrc (offset : BitVec 32) (value : Byte)
  | writeDst (offset : BitVec 32) (value : Byte)
  | readDst (offset : BitVec 32)
  deriving DecidableEq, Repr

/-- Who moves next (log 5). -/
inductive Turn where
  /-- The host makes one access. -/
  | host (a : HostAccess)
  /-- The core makes one internal step. -/
  | core
  /-- The host waits until the core is IDLE (70_reset_and_hazards.md R118 step 5). -/
  | wait
  /-- The platform resets the block (70_reset_and_hazards.md R116, R117). -/
  | reset
  /-- The platform behind a port fails an access (60_exceptions.md R107, U11). -/
  | portFailure
  deriving DecidableEq, Repr

/-- What a register offset of the window names (10_state.md R15). -/
inductive RegName where
  | ctrl | status | srcLen | dstCap | outLen | declLen | rdPos | unmapped
  deriving DecidableEq, Repr

/-- Everything the spec gives the machine. `turns`, `readData` and `draws` are the model's own (logs 5, 6, 7). -/
structure State where
  /-- `MAGIC` and `PORT_MAP` (00_scope.md R7, 20_memory.md R40); no step changes them. -/
  params      : Params
  /-- `CTRL.OP` (10_state.md R17). -/
  op          : BitVec 2
  /-- `CTRL.IRQ_EN` (10_state.md R18). -/
  irqEn       : Bool
  /-- `STATUS.DONE` (10_state.md R22). -/
  done        : Bool
  /-- `STATUS.LEN_MISMATCH` (10_state.md R23). -/
  lenMismatch : Bool
  /-- `STATUS.RESULT` (10_state.md R24). -/
  result      : Result
  /-- `SRC_LEN` (10_state.md R26). -/
  srcLen      : Reg
  /-- `DST_CAP` (10_state.md R27). -/
  dstCap      : Reg
  /-- `OUT_LEN` (10_state.md R28). -/
  outLen      : Reg
  /-- `DECL_LEN` (10_state.md R29). -/
  declLen     : Reg
  /-- `RD_POS` (10_state.md R30). -/
  rdPos       : Reg
  /-- IDLE or BUSY, with the working registers (10_state.md R14, R36, R37, R39). -/
  phase       : Phase
  /-- The buffer behind the SRC port (20_memory.md R40). A memory of its own, whatever `PORT_MAP` is: DESIGN CHOICE
  (log 3). -/
  src         : Memory
  /-- The buffer behind the DST port (20_memory.md R40). The same (log 3). -/
  dst         : Memory
  /-- The turns still to come; when none is listed the core moves. -/
  turns       : List Turn
  /-- What the host's last read returned. -/
  readData    : Reg
  /-- How many free values have been drawn. -/
  draws       : Nat
  deriving DecidableEq, Repr

/-- Why the machine faults. TLZ-CORE itself raises no fault (60_exceptions.md R107). -/
inductive Fault where
  /-- Raised by `execLit` and `execBref` when no DECODE is past its header check: the working registers a token
  reads are then undefined (10_state.md R37, U8). No run of the machine comes here. Safe. -/
  | workingRegistersUndefined
  deriving DecidableEq, Repr

/-- Why the model gives a situation no meaning. -/
inductive Refusal where
  /-- Raised by an arm of `exec` whose instruction has no meaning yet; no arm does. Safe. -/
  | notModelled (mnemonic : String)
  /-- Raised by a host register access that is not an aligned 32-bit access (10_state.md R16, U9). Safe. -/
  | registerAccess
  /-- Raised by a host write to SRC or DST while BUSY (70_reset_and_hazards.md R119, U4). Unsafe for a host that
  does it: claims must say that the host keeps R119. -/
  | bufferWriteWhileBusy
  /-- Raised by every START on a machine whose two ports reach a same byte of system memory
  (70_reset_and_hazards.md R120, U3). Safe. -/
  | portsOverlap
  /-- Raised by a turn in which the platform fails a port access (60_exceptions.md R107, U11). Safe. -/
  | platformFailure
  deriving DecidableEq, Repr

/-- The machine right after reset (70_reset_and_hazards.md R116): every register 0, IDLE. Nothing is listed in the
buffers, which reset does not touch (log 4), and no turn is listed (log 5). -/
def State.reset : State where
  params      := Config.params
  op          := 0
  irqEn       := false
  done        := false
  lenMismatch := false
  result      := .ok
  srcLen      := 0
  dstCap      := 0
  outLen      := 0
  declLen     := 0
  rdPos       := 0
  phase       := .idle
  src         := []
  dst         := []
  turns       := []
  readData    := 0
  draws       := 0

end Sys2Proof.Machine
end

