-- ==== Sys2Proof/Machine/Ops.lean ====
section
/-! DEFINITION. The shared operations over the ports and the registers: port bytes, START, completion, reset. -/

namespace Sys2Proof.Machine

/-! ## Port memories -/

/-- What an offset that nothing has written reads as: 0x00, DESIGN CHOICE (70_reset_and_hazards.md R116 leaves the
buffers to the platform; log 4). -/
def Memory.unlisted : Byte := 0

/-- The canonical form: rising offsets, no cell that reads as an unlisted one. -/
abbrev Memory.wf (m : Memory) : Prop :=
  m.Pairwise (fun c d => c.1 < d.1) ∧ ∀ c ∈ m, c.2 ≠ Memory.unlisted

/-- Every listed offset is an offset of the port, 0 to 2^32 - 1 (00_scope.md R8, 20_memory.md R40). -/
abbrev Memory.inPort (m : Memory) : Prop := ∀ c ∈ m, c.1 < 2 ^ Config.portAw

/-- `MemRead(port, a, 1)` (00_scope.md R11, 20_memory.md R41). -/
def Memory.read : Memory → Nat → Byte
  | [], _ => Memory.unlisted
  | c :: m, a => if c.1 = a then c.2 else Memory.read m a

/-- The cells at other offsets than `a`. -/
def Memory.erase (m : Memory) (a : Nat) : Memory := m.filter (fun c => c.1 != a)

/-- A cell put at its place among rising offsets. -/
def Memory.insertCell (a : Nat) (v : Byte) : Memory → Memory
  | [] => [(a, v)]
  | c :: m => if a < c.1 then (a, v) :: c :: m else c :: Memory.insertCell a v m

/-- `MemWrite(port, a, 1, v)` (00_scope.md R11, 20_memory.md R41). -/
def Memory.write (m : Memory) (a : Nat) (v : Byte) : Memory :=
  if v = Memory.unlisted then m.erase a else Memory.insertCell a v (m.erase a)

/-- Consecutive bytes written from `a` up, in rising offset order (41_encoder.md R83). -/
def Memory.writeList (m : Memory) (a : Nat) : List Byte → Memory
  | [] => m
  | b :: bs => Memory.writeList (m.write a b) (a + 1) bs

/-- The byte-serial overlapping copy of `n` bytes to `w` up from `jump` back: each byte is read after the ones
before it are written (42_decoder.md R92, 20_memory.md R49). -/
def Memory.copyBack (m : Memory) (w jump : Nat) : Nat → Memory
  | 0 => m
  | n + 1 => Memory.copyBack (m.write w (m.read (w - jump))) (w + 1) jump n

/-- `n` consecutive bytes from `a` up become the free values `k`, `k + 1`, … (70_reset_and_hazards.md R117). -/
def Memory.drawRange (m : Memory) (a k : Nat) : Nat → Memory
  | 0 => m
  | n + 1 => Memory.drawRange (m.write a (Config.freeByte k)) (a + 1) (k + 1) n

/-! ## Phase -/

/-- BUSY (10_state.md R14). -/
def State.busy (s : State) : Bool :=
  match s.phase with
  | .idle => false
  | .busy _ => true

/-- The state with the working registers `w` of a running command. -/
def State.setWork (s : State) (w : Work) : State := { s with phase := .busy w }

/-- The state with other turns to come. -/
def State.setTurns (s : State) (ts : List Turn) : State := { s with turns := ts }

/-! ## START and completion -/

/-- What an accepted START does to the registers (40_commands.md R67 steps 1 to 3). -/
def State.start (s : State) (op : BitVec 2) (irqEn : Bool) (w : Work) : State :=
  { s with op := op, irqEn := irqEn, done := false, lenMismatch := false, result := .ok, phase := .busy w }

/-- `finish(code)` with the outputs set before it, and the completion: the one way a command ends, with or
without an error (40_commands.md R68, R69; 60_exceptions.md R105). -/
def State.finish (s : State) (code : Result) (outLen declLen rdPos : Nat) (mismatch : Bool) : State :=
  { s with
    outLen := BitVec.ofNat 32 outLen, declLen := BitVec.ofNat 32 declLen, rdPos := BitVec.ofNat 32 rdPos,
    lenMismatch := mismatch, result := code, phase := .idle, done := true }

/-! ## Register updates by the host -/

/-- A CTRL write without START (10_state.md R19). -/
def State.setCtrl (s : State) (op : BitVec 2) (irqEn : Bool) : State := { s with op := op, irqEn := irqEn }

/-- DONE cleared by W1C (10_state.md R22). -/
def State.clearDone (s : State) : State := { s with done := false }

/-- SRC_LEN written (10_state.md R26). -/
def State.setSrcLen (s : State) (v : Reg) : State := { s with srcLen := v }

/-- DST_CAP written (10_state.md R27). -/
def State.setDstCap (s : State) (v : Reg) : State := { s with dstCap := v }

/-- A host read returned `v`. -/
def State.setReadData (s : State) (v : Reg) : State := { s with readData := v }

/-- A host read returned a draw (10_state.md R32, 70_reset_and_hazards.md R119). -/
def State.drawReadData (s : State) (v : Reg) : State := { s with readData := v, draws := s.draws + 1 }

/-- The SRC buffer is now `m`. -/
def State.setSrc (s : State) (m : Memory) : State := { s with src := m }

/-- The DST buffer is now `m`. -/
def State.setDst (s : State) (m : Memory) : State := { s with dst := m }

/-! ## Reset -/

/-- The register values of reset, the phase IDLE; SRC and DST untouched (70_reset_and_hazards.md R116). -/
def State.clearRegs (s : State) : State :=
  { s with
    op := 0, irqEn := false, done := false, lenMismatch := false, result := .ok, srcLen := 0, dstCap := 0,
    outLen := 0, declLen := 0, rdPos := 0, phase := .idle }

/-- The first `n` bytes of DST become draws (70_reset_and_hazards.md R117). -/
def State.drawDst (s : State) (n : Nat) : State :=
  { s with dst := s.dst.drawRange 0 s.draws n, draws := s.draws + n }

end Sys2Proof.Machine
end

