-- ==== Sys2Proof/Machine/Operands.lean ====
section
/-! DEFINITION. Where the operands of tokens, commands and register accesses come from. -/

namespace Sys2Proof.Machine

/-! ## Operands in the SRC buffer -/

/-- `n` bytes of a byte source, from offset `a` up. -/
def readRange (src : Nat → Byte) (a : Nat) : Nat → List Byte
  | 0 => []
  | n + 1 => src a :: readRange src (a + 1) n

/-- `HeaderOK(N)`: at least 7 bytes, and the first five are `MAGIC` (42_decoder.md R87). -/
def headerOk (magic : Vector Byte 5) (src : Nat → Byte) (len : Nat) : Bool :=
  decide (Config.hdrLen ≤ len) && readRange src 0 Config.magicLen == magic.toList

/-- The header's original length, `rd16(C[5], C[6])` (20_memory.md R42, 30_encoding.md R53). -/
def declaredLen (src : Nat → Byte) : Nat := (rd16 (src 5) (src 6)).toNat

/-- The token at offset `a`, lower offset first (20_memory.md R41, R42). -/
def tokenAt (src : Nat → Byte) (a : Nat) : Half := rd16 (src a) (src (a + 1))

/-- `HeaderOK` of the container on the SRC port. -/
def State.headerOk (s : State) : Bool := Machine.headerOk s.params.magic s.src.read s.srcLen.toNat

/-- The declared length of the container on the SRC port. -/
def State.declaredLen (s : State) : Nat := Machine.declaredLen s.src.read

/-! ## Which bytes the ports reach (20_memory.md R40; 70_reset_and_hazards.md R120) -/

/-- How many bytes of system memory a port of this size reaches: its offsets end at 2^32 - 1 (00_scope.md R8). -/
def portReach (size : Nat) : Nat := min size (2 ^ Config.portAw)

/-- Whether some offset of SRC and some offset of DST are the same byte of system memory. No register and no command
enters: R120 exempts no command. The two windows of `PORT_MAP` are DEDUCED (log 2). -/
def portsMeet (pm : Config.PortMap) : Bool :=
  portReach pm.srcSize != 0 && (portReach pm.dstSize != 0 &&
    (decide (pm.srcBase < pm.dstBase + portReach pm.dstSize) && decide (pm.dstBase < pm.srcBase + portReach pm.srcSize)))

/-- Whether `PORT_MAP` makes the two ports of this machine overlap (70_reset_and_hazards.md R120). -/
def State.portsMeet (s : State) : Bool := Machine.portsMeet s.params.portMap

/-! ## Register accesses -/

/-- A host register access is 32 bits wide, at a multiple of 4 (10_state.md R16). -/
def regAccessOk (offset : BitVec 5) (width : Nat) : Bool := width == 32 && offset.toNat % 4 == 0

/-- The register at an aligned offset of the window (10_state.md R15). -/
def regAt (offset : BitVec 5) : RegName :=
  if offset = 0x00 then .ctrl
  else if offset = 0x04 then .status
  else if offset = 0x08 then .srcLen
  else if offset = 0x0C then .dstCap
  else if offset = 0x10 then .outLen
  else if offset = 0x14 then .declLen
  else if offset = 0x18 then .rdPos
  else .unmapped

end Sys2Proof.Machine
end

