-- ==== Sys2Proof/Machine/Encoder.lean ====
section
/-! DEFINITION. The encoder: match finder, token packer and the ENCODE command (41_encoder.md R73 to R85). -/

namespace Sys2Proof.Machine

/-! ## The match finder -/

/-- The loop of `MatchLen(pos, j)`, from `k` on, with `fuel = MAX_MATCH - k` (41_encoder.md R75). -/
def matchLenFrom (inp : Nat → Byte) (len pos j : Nat) : Nat → Nat → Nat
  | 0, k => k
  | fuel + 1, k =>
    if pos + k < len ∧ inp (pos - j + k) = inp (pos + k) then matchLenFrom inp len pos j fuel (k + 1) else k

/-- `MatchLen(pos, j)` (41_encoder.md R75). -/
def matchLen (inp : Nat → Byte) (len pos j : Nat) : Nat := matchLenFrom inp len pos j Config.maxMatch 0

/-- A match: its length and its distance. -/
abbrev Match := Nat × Nat

/-- The loop of `BestMatch`: the next `n` distances after `j`, with the best match so far (41_encoder.md R76). -/
def bestMatchFrom (inp : Nat → Byte) (len pos : Nat) : Nat → Nat → Match → Match
  | 0, _, best => best
  | n + 1, j, best =>
    bestMatchFrom inp len pos n (j + 1)
      (if best.1 < matchLen inp len pos (j + 1) then (matchLen inp len pos (j + 1), j + 1) else best)

/-- `BestMatch(pos)`: the distances 1 to min(WINDOW, pos), in rising order (41_encoder.md R74, R76). -/
def bestMatch (inp : Nat → Byte) (len pos : Nat) : Match :=
  bestMatchFrom inp len pos (min Config.window pos) 0 (0, 0)

/-! ## The token packer -/

/-- A literal flush: the token, then the raw bytes of the run (41_encoder.md R79). -/
def literalItem (inp : Nat → Byte) (runStart n : Nat) : List Byte :=
  tokenBytes 0 (BitVec.ofNat 11 n) ++ readRange inp runStart n

/-- An emitted back-reference (41_encoder.md R77). -/
def backRefItem (m : Match) : List Byte := tokenBytes (BitVec.ofNat 5 m.1) (BitVec.ofNat 11 m.2)

/-- What one pass of the encoder's loop emits and where it leaves the cursors. -/
structure Scan where
  bytes    : List Byte
  pos      : Nat
  runStart : Nat
  best     : Match
  deriving DecidableEq, Repr

/-- An accepted match: flush the run if it is not empty, emit the back-reference (41_encoder.md R77). -/
def scanAccept (inp : Nat → Byte) (pos runStart : Nat) (m : Match) : Scan where
  bytes := (if runStart < pos then literalItem inp runStart (pos - runStart) else []) ++ backRefItem m
  pos := pos + m.1
  runStart := pos + m.1
  best := m

/-- A rejected position: the byte joins the run, which is flushed when it is full or the input ends
(41_encoder.md R78). -/
def scanReject (inp : Nat → Byte) (len pos runStart : Nat) (m : Match) : Scan :=
  if pos + 1 - runStart = Config.maxLit ∨ pos + 1 = len then
    { bytes := literalItem inp runStart (pos + 1 - runStart), pos := pos + 1, runStart := pos + 1, best := m }
  else { bytes := [], pos := pos + 1, runStart := runStart, best := m }

/-- One pass with the best match given: accepted when its length is at least MIN_MATCH (41_encoder.md R77). -/
def scanWith (inp : Nat → Byte) (len pos runStart : Nat) (m : Match) : Scan :=
  if Config.minMatch ≤ m.1 then scanAccept inp pos runStart m else scanReject inp len pos runStart m

/-- One pass of the loop of `Encode` (41_encoder.md R73). -/
def scanStep (inp : Nat → Byte) (len pos runStart : Nat) : Scan :=
  scanWith inp len pos runStart (bestMatch inp len pos)

/-- The container header: `MAGIC ++ le16(L)` (30_encoding.md R53, 41_encoder.md R73). -/
def headerBytes (magic : Vector Byte 5) (len : Nat) : List Byte := magic.toList ++ le16 (BitVec.ofNat 16 len)

/-- The loop of `Encode` from a position on; `fuel` passes at most (41_encoder.md R73). -/
def encodeItems (inp : Nat → Byte) (len : Nat) : Nat → Nat → Nat → List Byte
  | 0, _, _ => []
  | fuel + 1, pos, runStart =>
    if pos < len then
      (scanStep inp len pos runStart).bytes ++
        encodeItems inp len fuel (scanStep inp len pos runStart).pos (scanStep inp len pos runStart).runStart
    else []

/-- `Encode(in)` of the first `len` bytes of `inp`. Each pass advances `pos`, so `len` passes are enough
(41_encoder.md R73, 40_commands.md R70). -/
def encodeStream (magic : Vector Byte 5) (inp : Nat → Byte) (len : Nat) : List Byte :=
  headerBytes magic len ++ encodeItems inp len len 0 0

/-! ## The stepwise ENCODE command -/

/-- `emit` of each byte in turn, from `wr` up: it stops at the first byte that does not fit. The answer is DST,
`wr` and whether a byte did not fit (41_encoder.md R83). -/
def emitBytes (cap : Nat) : List Byte → Memory → Nat → Memory × Nat × Bool
  | [], m, wr => (m, wr, false)
  | b :: bs, m, wr => if cap ≤ wr then (m, wr, true) else emitBytes cap bs (m.write wr b) (wr + 1)

/-- Emit `bytes`, then go on with the working registers `e` (whose `wr` is where the bytes start), or end with
DST_OVERFLOW (41_encoder.md R83, R84). -/
def State.encodeEmit (s : State) (bytes : List Byte) (e : EncRegs) : State :=
  match emitBytes s.dstCap.toNat bytes s.dst e.wr with
  | (m, wr, true) => (s.setDst m).finish .dstOverflow wr e.len 0 false
  | (m, wr, false) => (s.setDst m).setWork (.encoding { e with wr := wr })

/-- The first step of ENCODE: refuse L > MAX_ORIG_LEN before any access (41_encoder.md R82), else initialise the
working registers and emit the header (R73). -/
def State.encodeBegin (s : State) : State :=
  if Config.maxOrigLen < s.srcLen.toNat then s.finish .unrepresentable 0 0 0 false
  else s.encodeEmit (headerBytes s.params.magic s.srcLen.toNat)
    { len := s.srcLen.toNat, pos := 0, runStart := 0, bestLen := 0, bestJump := 0, wr := 0 }

/-- A later step of ENCODE: one pass of the loop, or the end of the scan (41_encoder.md R73, R81). -/
def State.encodeNext (s : State) (e : EncRegs) : State :=
  if e.pos < e.len then
    let p := scanStep s.src.read e.len e.pos e.runStart
    s.encodeEmit p.bytes
      { e with pos := p.pos, runStart := p.runStart, bestLen := p.best.1, bestJump := p.best.2 }
  else s.finish .ok e.wr e.len 0 false

/-! ## START, common to the four commands -/

/-- An accepted START begins the command; a START while BUSY is ignored entirely (40_commands.md R67,
10_state.md R31). Every launch on a machine whose ports overlap is refused, so no command runs there
(70_reset_and_hazards.md R120; log 2). -/
def startCommand (op : BitVec 2) (irqEn : Bool) (w : Work) (s : State) : Host.Outcome State Fault Refusal :=
  match s.phase with
  | .busy _ => .next s
  | .idle => if s.portsMeet then .refused .portsOverlap else .next (s.start op irqEn w)

/-- `ENCODE` (41_encoder.md R81): the START of R67. The command then runs by `State.encodeBegin` and
`State.encodeNext`. -/
def execEncode (irqEn : Bool) (s : State) : Host.Outcome State Fault Refusal :=
  startCommand opEncode irqEn .encodeStart s

end Sys2Proof.Machine
end

