-- ==== Sys2Proof/Machine/Flags.lean ====
section
/-! DEFINITION. The fields of CTRL and STATUS as software reads them, and the interrupt output. -/

namespace Sys2Proof.Machine

/-- The code of a result in `STATUS.RESULT` (60_exceptions.md R101). -/
def Result.code : Result → BitVec 4
  | .ok => 0
  | .unrepresentable => 1
  | .dstOverflow => 2
  | .badContainer => 3
  | .truncToken => 4
  | .truncLiteral => 5
  | .badDistance => 6
  | .outOverrun => 7

/-- One flag at bit `n` of a register. -/
def flagBit (b : Bool) (n : Nat) : Reg := (BitVec.ofBool b).setWidth 32 <<< n

/-- CTRL as read: OP in [1:0], IRQ_EN in [2], START and the reserved bits 0 (10_state.md R17 to R20). -/
def State.ctrlWord (s : State) : Reg := s.op.setWidth 32 ||| flagBit s.irqEn 2

/-- STATUS as read: BUSY, DONE, LEN_MISMATCH, RESULT in [7:4], the reserved bits 0 (10_state.md R21 to R25). -/
def State.statusWord (s : State) : Reg :=
  flagBit s.busy 0 ||| flagBit s.done 1 ||| flagBit s.lenMismatch 2 ||| (s.result.code.setWidth 32 <<< 4)

/-- LEN_MISMATCH of a DECODE that ends OK: the output differs from the declared length (42_decoder.md R95). -/
def lengthsDiffer (wr decl : Nat) : Bool := wr != decl

/-- The level interrupt output, `irq = DONE & IRQ_EN` (10_state.md R33). -/
def State.irq (s : State) : Bool := s.done && s.irqEn

/-- Bit [1] of a word written to STATUS: clear DONE (10_state.md R22). -/
def statusClearsDone (w : Reg) : Bool := w.getLsbD 1

end Sys2Proof.Machine
end

