-- ==== Sys2Proof/Machine/Decoder.lean ====
section
/-! DEFINITION. The decoder: LIT, BREF and the DECODE command (42_decoder.md R86 to R96). -/

namespace Sys2Proof.Machine

/-! ## The DECODE command -/

/-- `DECODE` (42_decoder.md R86): the START of 40_commands.md R67. The command then runs by `State.decodeBegin`,
`State.fetchToken`, the two token meanings and `State.decodeEnd`. -/
def execDecode (irqEn : Bool) (s : State) : Host.Outcome State Fault Refusal :=
  startCommand opDecode irqEn .decodeStart s

/-- The first step of DECODE: the header check (42_decoder.md R87), then the working registers (R86, R88). -/
def State.decodeBegin (s : State) : State :=
  if s.headerOk then
    s.setWork (.decoding
      { len := s.srcLen.toNat, decl := s.declaredLen, bound := min s.declaredLen s.dstCap.toNat,
        rd := Config.hdrLen, wr := 0, p := Config.hdrLen, tok := 0 })
  else s.finish .badContainer 0 0 0 false

/-- `stop(code)`: a token error, with the registers as they stood before the failing token
(42_decoder.md R86, 60_exceptions.md R104). -/
def State.decodeStop (s : State) (d : DecRegs) (code : Result) : State :=
  s.finish code d.wr d.decl d.p false

/-- The end of the stream, `rd = N` (42_decoder.md R95). -/
def State.decodeEnd (s : State) (d : DecRegs) : State :=
  s.finish .ok d.wr d.decl d.rd (lengthsDiffer d.wr d.decl)

/-- The working registers after `FetchToken` (42_decoder.md R89): `p` is the token's offset, `rd` lies past it. -/
def fetchedRegs (src : Nat → Byte) (d : DecRegs) : DecRegs :=
  { d with p := d.rd, tok := tokenAt src d.rd, rd := d.rd + 2 }

/-- A single byte is left where a token should start (42_decoder.md R89): the command ends there. -/
def State.decodeTrunc (s : State) (d : DecRegs) : State := s.decodeStop { d with p := d.rd } .truncToken

/-! ## The two token kinds, executed after the fetch -/

/-- What `LIT n` does to the decoder's registers (42_decoder.md R90). -/
def litRegs (d : DecRegs) (n : Nat) : DecRegs := { d with rd := d.rd + n, wr := d.wr + n }

/-- What `LIT n` writes to DST (42_decoder.md R90). -/
def State.litDst (s : State) (d : DecRegs) (n : Nat) : Memory :=
  s.dst.writeList d.wr (readRange s.src.read d.rd n)

/-- `LIT n` in a running DECODE: the checks of 42_decoder.md R91, then the copy of R90. -/
def State.literal (s : State) (d : DecRegs) (n : Nat) : State :=
  if d.len - d.rd < n then s.decodeStop d .truncLiteral
  else if d.bound < d.wr + n then s.decodeStop d .outOverrun
  else (s.setDst (s.litDst d n)).setWork (.decoding (litRegs d n))

/-- `LIT` (42_decoder.md R90, R91). -/
def execLit (jump : BitVec 11) (s : State) : Host.Outcome State Fault Refusal :=
  match s.phase with
  | .busy (.decoding d) => .next (s.literal d jump.toNat)
  | _ => .fault .workingRegistersUndefined

/-- `BREF` in a running DECODE: the checks of 42_decoder.md R93, then the byte-serial copy of R92. -/
def State.backRef (s : State) (d : DecRegs) (count jump : Nat) : State :=
  if jump = 0 ∨ d.wr < jump then s.decodeStop d .badDistance
  else if d.bound < d.wr + count then s.decodeStop d .outOverrun
  else (s.setDst (s.dst.copyBack d.wr jump count)).setWork (.decoding { d with wr := d.wr + count })

/-- `BREF` (42_decoder.md R92, R93). -/
def execBref (count : BitVec 5) (jump : BitVec 11) (s : State) : Host.Outcome State Fault Refusal :=
  match s.phase with
  | .busy (.decoding d) => .next (s.backRef d count.toNat jump.toNat)
  | _ => .fault .workingRegistersUndefined

end Sys2Proof.Machine
end

