-- ==== Sys2Proof/Machine/Estimator.lean ====
section
/-! DEFINITION. The estimator commands (43_estimators.md R97 to R100). -/

namespace Sys2Proof.Machine

/-- `L + (L div 2047 + 2) * 2 + 7` (43_estimators.md R97). -/
def compressedEstimate (len : Nat) : Nat := len + (len / 2047 + 2) * 2 + 7

/-- `EST_COMP` (43_estimators.md R97): the START of 40_commands.md R67. The command then runs by
`State.estimateComp`. -/
def execEstComp (irqEn : Bool) (s : State) : Host.Outcome State Fault Refusal :=
  startCommand opEstComp irqEn .estComp s

/-- The one step of EST_COMP (43_estimators.md R97). -/
def State.estimateComp (s : State) : State :=
  if Config.maxOrigLen < s.srcLen.toNat then s.finish .unrepresentable 0 0 0 false
  else s.finish .ok (compressedEstimate s.srcLen.toNat) s.srcLen.toNat 0 false

/-- `EST_DECOMP` (43_estimators.md R98): the START of 40_commands.md R67. The command then runs by
`State.estimateDecomp`. -/
def execEstDecomp (irqEn : Bool) (s : State) : Host.Outcome State Fault Refusal :=
  startCommand opEstDecomp irqEn .estDecomp s

/-- The one step of EST_DECOMP (43_estimators.md R98). -/
def State.estimateDecomp (s : State) : State :=
  if s.headerOk then s.finish .ok s.declaredLen s.declaredLen 0 false
  else s.finish .badContainer 0 0 0 false

end Sys2Proof.Machine
end

