-- ==== Sys2Proof/Machine/Dispatch.lean ====
section
/-! DEFINITION. One arm per instruction. -/

namespace Sys2Proof.Machine

def exec (i : Instr) (s : State) : Host.Outcome State Fault Refusal :=
  match i with
  | .lit jump => Sys2Proof.Machine.execLit jump s
  | .bref count jump => Sys2Proof.Machine.execBref count jump s
  | .encode irqEn => Sys2Proof.Machine.execEncode irqEn s
  | .decode irqEn => Sys2Proof.Machine.execDecode irqEn s
  | .estComp irqEn => Sys2Proof.Machine.execEstComp irqEn s
  | .estDecomp irqEn => Sys2Proof.Machine.execEstDecomp irqEn s

end Sys2Proof.Machine
end

