-- ==== Sys2Proof/Machine/Turns.lean ====
section
/-! DEFINITION. What each agent does in its turn: the core's internal step, a host access, a reset; and whose turn is
next. -/

namespace Sys2Proof.Machine

/-! ## The core's turn -/

/-- One pass of the token loop of DECODE: end of stream, truncated token, or fetch and execute
(42_decoder.md R86, R89, R95). -/
def tokenTurn (s : State) (d : DecRegs) : Host.Outcome State Fault Refusal :=
  if d.rd < d.len then
    if d.len - d.rd < 2 then .next (s.decodeTrunc d)
    else exec (decodeToken (tokenAt s.src.read d.rd)) (s.setWork (.decoding (fetchedRegs s.src.read d)))
  else .next (s.decodeEnd d)

/-- One internal step of the running command; in IDLE the core waits (70_reset_and_hazards.md R116). -/
def coreTurn (s : State) : Host.Outcome State Fault Refusal :=
  match s.phase with
  | .idle => .next s
  | .busy .encodeStart => .next s.encodeBegin
  | .busy (.encoding e) => .next (s.encodeNext e)
  | .busy .decodeStart => .next s.decodeBegin
  | .busy (.decoding d) => tokenTurn s d
  | .busy .estComp => .next s.estimateComp
  | .busy .estDecomp => .next s.estimateDecomp

/-! ## Host accesses -/

/-- A host read of a register (10_state.md R16, R32). While BUSY the three result registers read as draws. -/
def State.readReg (s : State) (r : RegName) : State :=
  match r with
  | .ctrl => s.setReadData s.ctrlWord
  | .status => s.setReadData s.statusWord
  | .srcLen => s.setReadData s.srcLen
  | .dstCap => s.setReadData s.dstCap
  | .outLen => if s.busy then s.drawReadData (Config.freeValue s.draws) else s.setReadData s.outLen
  | .declLen => if s.busy then s.drawReadData (Config.freeValue s.draws) else s.setReadData s.declLen
  | .rdPos => if s.busy then s.drawReadData (Config.freeValue s.draws) else s.setReadData s.rdPos
  | .unmapped => s.setReadData 0

/-- A host write to CTRL in IDLE: a command word runs its instruction, any other word sets OP and IRQ_EN
(10_state.md R17 to R20). -/
def writeCtrl (w : Reg) (s : State) : Host.Outcome State Fault Refusal :=
  match decode (.ctrl w) with
  | .ok i => exec i s
  | .error _ => .next (s.setCtrl (ctrlOp w) (ctrlIrqEn w))

/-- A host write of a register in IDLE (10_state.md R16, R22). Read-only registers and the unmapped offset ignore
it. -/
def writeReg (r : RegName) (v : Reg) (s : State) : Host.Outcome State Fault Refusal :=
  match r with
  | .ctrl => writeCtrl v s
  | .status => .next (if statusClearsDone v then s.clearDone else s)
  | .srcLen => .next (s.setSrcLen v)
  | .dstCap => .next (s.setDstCap v)
  | .outLen => .next s
  | .declLen => .next s
  | .rdPos => .next s
  | .unmapped => .next s

/-- What a write does while BUSY: nothing, but a command word is still the ignored START of 40_commands.md R67
(10_state.md R31). -/
def writeRegBusy (r : RegName) (v : Reg) (s : State) : Host.Outcome State Fault Refusal :=
  match r with
  | .ctrl => match decode (.ctrl v) with
    | .ok i => exec i s
    | .error _ => .next s
  | _ => .next s

/-- One host access (10_state.md R16, R31, R32; 70_reset_and_hazards.md R119). -/
def hostTurn (a : HostAccess) (s : State) : Host.Outcome State Fault Refusal :=
  match a with
  | .readReg offset width =>
    if regAccessOk offset width then .next (s.readReg (regAt offset)) else .refused .registerAccess
  | .writeReg offset width v =>
    if regAccessOk offset width then
      if s.busy then writeRegBusy (regAt offset) v s else writeReg (regAt offset) v s
    else .refused .registerAccess
  | .writeSrc a v =>
    if s.busy then .refused .bufferWriteWhileBusy else .next (s.setSrc (s.src.write a.toNat v))
  | .writeDst a v =>
    if s.busy then .refused .bufferWriteWhileBusy else .next (s.setDst (s.dst.write a.toNat v))
  | .readDst a =>
    if s.busy then .next (s.drawReadData ((Config.freeByte s.draws).setWidth 32))
    else .next (s.setReadData ((s.dst.read a.toNat).setWidth 32))

/-! ## Reset -/

/-- How many bytes of DST, from offset 0 up, the running command's write range holds
(70_reset_and_hazards.md R117). -/
def State.writeRange (s : State) : Nat :=
  match s.phase with
  | .idle => 0
  | .busy .encodeStart => s.dstCap.toNat
  | .busy (.encoding _) => s.dstCap.toNat
  | .busy .decodeStart => if s.headerOk then min s.declaredLen s.dstCap.toNat else 0
  | .busy (.decoding d) => d.bound
  | .busy .estComp => 0
  | .busy .estDecomp => 0

/-- A reset, in either phase: a running command is abandoned, and the bytes of its write range become draws
(70_reset_and_hazards.md R116, R117). -/
def State.resetTurn (s : State) : State := (s.drawDst s.writeRange).clearRegs

/-! ## The next turn -/

/-- The agent whose turn is next moves (10_state.md R13, R14; log 5). `wait` stays at the head of the list while the core is
BUSY, each step of it being one of the core's. -/
def takeTurn (s : State) : Host.Outcome State Fault Refusal :=
  match s.turns with
  | [] => coreTurn s
  | .core :: ts => coreTurn (s.setTurns ts)
  | .wait :: ts => if s.busy then coreTurn s else .next (s.setTurns ts)
  | .host a :: ts => hostTurn a (s.setTurns ts)
  | .reset :: ts => .next (s.setTurns ts).resetTurn
  | .portFailure :: _ => .refused .platformFailure

/-! ## A token placed for the next step (log 13) -/

/-- A token's two bytes stored at offset `a` (20_memory.md R42). -/
def Memory.storeToken (m : Memory) (a : Nat) (t : Half) : Memory :=
  (m.write a (t.extractLsb' 0 8)).write (a + 1) (t.extractLsb' 8 8)

/-- The registers of a running DECODE that has room for one more token. -/
def State.roomForToken (s : State) : Option DecRegs :=
  match s.phase with
  | .busy (.decoding d) => if d.rd + 2 ≤ d.len then some d else none
  | _ => none

/-- The machine on a platform whose ports are apart, SRC at system addresses 0 to 2^32 - 1 and DST above: without that no
command is launched (70_reset_and_hazards.md R120), and the map after reset is open (log 1, log 13). -/
def State.onApartPorts (s : State) : State :=
  { s with params := { s.params with portMap := { srcBase := 0, srcSize := 2 ^ Config.portAw, dstBase := 2 ^ Config.portAw,
                                                  dstSize := 2 ^ Config.portAw } } }

/-- A token as the next item of a DECODE, and the core's turn next. A running DECODE with room for a token gets it
at its read cursor; otherwise a stream of this one item begins, under a header that declares 65535 bytes. -/
def State.withToken (s : State) (t : Half) : State :=
  match s.roomForToken with
  | some d => { s with src := s.src.storeToken d.rd t, turns := .core :: s.turns }
  | none =>
    let n := Config.hdrLen + 2 + (tokenJump t).toNat
    { s.onApartPorts with
      src := (s.src.storeToken 5 65535).storeToken Config.hdrLen t
      srcLen := BitVec.ofNat 32 n
      dstCap := BitVec.ofNat 32 Config.maxOrigLen
      op := opDecode
      phase := .busy (.decoding
        { len := n, decl := Config.maxOrigLen, bound := Config.maxOrigLen, rd := Config.hdrLen, wr := 0,
          p := Config.hdrLen, tok := 0 })
      turns := .core :: s.turns }

end Sys2Proof.Machine
end

