-- ==== Sys2Proof/Machine/Step.lean ====
section
/-! DEFINITION. One step, and a table word placed for the next step. -/

namespace Sys2Proof.Machine

/-- One step of the machine (10_state.md R13, R14; log 5): the agent whose turn is next moves. -/
def step (s : State) : Host.Outcome State Fault Refusal := takeTurn s

/-- A word of the opcode table placed where the next step finds it: a CTRL word as the host's next write to CTRL,
a token at the read cursor of a running DECODE, on a platform that lets a command be launched (log 13). -/
def State.withFetchWord (s : State) (nbits w : Nat) : State :=
  if tableWordIsCtrl nbits w then
    { s.onApartPorts with turns := .host (.writeReg 0 32 (BitVec.ofNat 32 w)) :: s.turns }
  else s.withToken (BitVec.ofNat 16 w)

end Sys2Proof.Machine
end

