-- ==== Sys2Proof/Machine/Command.lean ====
section
/-! DEFINITION. Each command as ONE function of its inputs (40_commands.md R66, R71). The machine steps through the
same algorithms (Machine/Encoder, Decoder, Estimator, Turns); statements say that the two views agree at completion. -/

namespace Sys2Proof.Machine

/-- The outputs of a command. `written` is what DST holds from offset 0 up: every command writes rising offsets from
0, each once (20_memory.md R45). -/
structure Outputs where
  written     : List Byte
  outLen      : Nat
  declLen     : Nat
  rdPos       : Nat
  result      : Result
  lenMismatch : Bool
  deriving DecidableEq, Repr

/-- A command refused before any access: all lengths 0 (60_exceptions.md R101, codes 1 and 3). -/
def Outputs.nothing (code : Result) : Outputs :=
  { written := [], outLen := 0, declLen := 0, rdPos := 0, result := code, lenMismatch := false }

/-- `ENCODE` as one function: the container's first `cap` bytes (41_encoder.md R81). -/
def encodeOutputs (magic : Vector Byte 5) (src : Nat → Byte) (len cap : Nat) : Outputs :=
  if Config.maxOrigLen < len then .nothing .unrepresentable
  else
    let c := encodeStream magic src len
    { written := c.take cap, outLen := min c.length cap, declLen := len, rdPos := 0,
      result := if cap < c.length then .dstOverflow else .ok, lenMismatch := false }

/-- The output after a back-reference, as a sequence: `n` times, append the byte `jump` back from the end
(42_decoder.md R92). -/
def appendBack (jump : Nat) : Nat → List Byte → List Byte
  | 0, out => out
  | n + 1, out => appendBack jump n (out ++ [out.getD (out.length - jump) 0])

/-- How a token stream ended: the output so far, the read cursor RD_POS reports, and the result. -/
structure Decoded where
  out    : List Byte
  rdPos  : Nat
  result : Result
  deriving DecidableEq, Repr

/-- The token loop of DECODE on sequences, at most `fuel` tokens (42_decoder.md R86, R89 to R93). -/
def decodeItems (src : Nat → Byte) (len bound : Nat) : Nat → Nat → List Byte → Decoded
  | 0, rd, out => ⟨out, rd, .ok⟩
  | fuel + 1, rd, out =>
    if rd < len then
      if len - rd < 2 then ⟨out, rd, .truncToken⟩
      else match decodeToken (tokenAt src rd) with
        | .lit jump =>
          if len - (rd + 2) < jump.toNat then ⟨out, rd, .truncLiteral⟩
          else if bound < out.length + jump.toNat then ⟨out, rd, .outOverrun⟩
          else decodeItems src len bound fuel (rd + 2 + jump.toNat) (out ++ readRange src (rd + 2) jump.toNat)
        | .bref count jump =>
          if jump.toNat = 0 ∨ out.length < jump.toNat then ⟨out, rd, .badDistance⟩
          else if bound < out.length + count.toNat then ⟨out, rd, .outOverrun⟩
          else decodeItems src len bound fuel (rd + 2) (appendBack jump.toNat count.toNat out)
        | _ => ⟨out, rd, .ok⟩
    else ⟨out, rd, .ok⟩

/-- `DECODE` as one function. Every token is at least 2 bytes, so `len` tokens are enough (42_decoder.md R86,
40_commands.md R70). -/
def decodeOutputs (magic : Vector Byte 5) (src : Nat → Byte) (len cap : Nat) : Outputs :=
  if headerOk magic src len then
    let r := decodeItems src len (min (declaredLen src) cap) len Config.hdrLen []
    { written := r.out, outLen := r.out.length, declLen := declaredLen src, rdPos := r.rdPos, result := r.result,
      lenMismatch := r.result == .ok && lengthsDiffer r.out.length (declaredLen src) }
  else .nothing .badContainer

/-- `EST_COMP` as one function (43_estimators.md R97). -/
def estCompOutputs (len : Nat) : Outputs :=
  if Config.maxOrigLen < len then .nothing .unrepresentable
  else { Outputs.nothing .ok with outLen := compressedEstimate len, declLen := len }

/-- `EST_DECOMP` as one function (43_estimators.md R98). -/
def estDecompOutputs (magic : Vector Byte 5) (src : Nat → Byte) (len : Nat) : Outputs :=
  if headerOk magic src len then
    { Outputs.nothing .ok with outLen := declaredLen src, declLen := declaredLen src }
  else .nothing .badContainer

/-- `Command(op, N, cap, SRC, MAGIC)` (40_commands.md R66). -/
def command (op : BitVec 2) (len cap : Nat) (src : Nat → Byte) (magic : Vector Byte 5) : Outputs :=
  if op = opEncode then encodeOutputs magic src len cap
  else if op = opDecode then decodeOutputs magic src len cap
  else if op = opEstComp then estCompOutputs len
  else estDecompOutputs magic src len

/-- The outputs of the command `op` on the registers and the SRC buffer of `s`. -/
def State.commandOutputs (s : State) (op : BitVec 2) : Outputs :=
  command op s.srcLen.toNat s.dstCap.toNat s.src.read s.params.magic

/-- The state a command started in `s` leaves at its completion (40_commands.md R67, R69): the outputs, DONE, IDLE,
and nothing else changed. No turn is listed, the host having made its last access with the START. -/
def State.commandDone (s : State) (op : BitVec 2) (irqEn : Bool) (o : Outputs) : State :=
  { s with
    op := op, irqEn := irqEn, done := true, lenMismatch := o.lenMismatch, result := o.result,
    outLen := BitVec.ofNat 32 o.outLen, declLen := BitVec.ofNat 32 o.declLen, rdPos := BitVec.ofNat 32 o.rdPos,
    phase := .idle, dst := s.dst.writeList 0 o.written, turns := [] }

/-! ## The items of a token stream -/

/-- One item of a token stream (30_encoding.md R54). -/
inductive Item where
  /-- A literal token and its raw bytes (R59). -/
  | raw (bytes : List Byte)
  /-- A back-reference token (R60). -/
  | back (count jump : Nat)
  deriving DecidableEq, Repr

/-- The bytes of an item (30_encoding.md R59, R60). -/
def Item.bytes : Item → List Byte
  | .raw bs => tokenBytes 0 (BitVec.ofNat 11 bs.length) ++ bs
  | .back count jump => tokenBytes (BitVec.ofNat 5 count) (BitVec.ofNat 11 jump)

/-- How many container bytes an item takes (30_encoding.md R61). -/
def Item.size : Item → Nat
  | .raw bs => 2 + bs.length
  | .back _ _ => 2

/-- The items the encoder may emit (41_encoder.md R80). -/
def Item.emitted : Item → Prop
  | .raw bs => 1 ≤ bs.length ∧ bs.length ≤ Config.maxLit
  | .back count jump =>
    Config.minMatch ≤ count ∧ count ≤ Config.maxMatch ∧ 1 ≤ jump ∧ jump ≤ Config.window

/-- Two literal items are adjacent only when the first holds exactly 2047 bytes (41_encoder.md R80). -/
def Item.mayPrecede : Item → Item → Prop
  | .raw bs, .raw _ => bs.length = Config.maxLit
  | _, _ => True

end Sys2Proof.Machine
end

