-- ==== Sys2Proof/Safety.lean ====
section
/-! DEFINITION. The invariant of the machine and what a host must respect, in the terms statements use. -/

namespace Sys2Proof.Machine

/-- The ranges of the encoder's working registers (10_state.md R36) under the register values of its START
(R31). -/
structure EncRegs.InRange (e : EncRegs) (srcLen dstCap : Nat) : Prop where
  len_eq : e.len = srcLen
  len_le : e.len ≤ Config.maxOrigLen
  run_le : e.runStart ≤ e.pos
  pos_le : e.pos ≤ e.len
  run_lt : e.pos - e.runStart < Config.maxLit
  run_end : e.pos = e.len → e.runStart = e.pos
  bestLen_le : e.bestLen ≤ Config.maxMatch
  bestJump_le : e.bestJump ≤ Config.window
  wr_ge : Config.hdrLen ≤ e.wr
  wr_le : e.wr ≤ dstCap

/-- The ranges of the decoder's working registers (10_state.md R37) under the register values of its START (R31)
and the header of the container. -/
structure DecRegs.InRange (d : DecRegs) (srcLen dstCap decl : Nat) : Prop where
  len_eq : d.len = srcLen
  decl_eq : d.decl = decl
  bound_eq : d.bound = min d.decl dstCap
  rd_ge : Config.hdrLen ≤ d.rd
  rd_le : d.rd ≤ d.len
  wr_le : d.wr ≤ d.bound
  p_ge : Config.hdrLen ≤ d.p
  p_le : d.p ≤ d.rd

/-- The running command is the one CTRL.OP names, and its working registers are in range. -/
def State.WorkOk (s : State) : Work → Prop
  | .encodeStart => s.op = opEncode
  | .encoding e => s.op = opEncode ∧ e.InRange s.srcLen.toNat s.dstCap.toNat
  | .decodeStart => s.op = opDecode
  | .decoding d => s.op = opDecode ∧ d.InRange s.srcLen.toNat s.dstCap.toNat s.declaredLen
  | .estComp => s.op = opEstComp
  | .estDecomp => s.op = opEstDecomp

/-- What every state of a run satisfies. -/
structure State.Inv (s : State) : Prop where
  /-- The port memories are in canonical form, within the port. -/
  src_wf : s.src.wf
  dst_wf : s.dst.wf
  src_inPort : s.src.inPort
  dst_inPort : s.dst.inPort
  /-- While BUSY the other STATUS fields are 0 (10_state.md R32). -/
  busy_status : s.busy = true → s.done = false ∧ s.lenMismatch = false ∧ s.result = .ok
  /-- While a command runs the two ports reach no same byte (20_memory.md R40, 70_reset_and_hazards.md R120). -/
  busy_ports : s.busy = true → s.portsMeet = false
  /-- The running command's registers are in range. -/
  busy_work : ∀ w, s.phase = .busy w → s.WorkOk w
  /-- DECL_LEN bits [31:16] are 0 (10_state.md R29). -/
  decl_lt : s.declLen.toNat ≤ Config.maxOrigLen
  /-- LEN_MISMATCH means an OK result that produced fewer bytes than declared (42_decoder.md R95). -/
  mismatch : s.lenMismatch = true → s.result = .ok ∧ s.outLen.toNat < s.declLen.toNat

/-- Where the command of a CTRL.OP code begins (10_state.md R17). -/
def commandWork (op : BitVec 2) : Work :=
  if op = opEncode then .encodeStart
  else if op = opDecode then .decodeStart
  else if op = opEstComp then .estComp
  else .estDecomp

/-- An access the spec gives a meaning to: an aligned 32-bit register access (10_state.md R16); no write to a
buffer while BUSY (70_reset_and_hazards.md R119); no START on a machine whose ports overlap (R120). -/
def State.Allows (s : State) : HostAccess → Prop
  | .readReg offset width => regAccessOk offset width = true
  | .writeReg offset width v =>
    regAccessOk offset width = true ∧
      (s.busy = false → regAt offset = .ctrl → ctrlStart v = true → s.portsMeet = false)
  | .writeSrc _ _ => s.busy = false
  | .writeDst _ _ => s.busy = false
  | .readDst _ => True

/-- The next turn is one the spec gives a meaning to. -/
def State.TurnAllowed (s : State) : Prop :=
  match s.turns with
  | .host a :: _ => s.Allows a
  | .portFailure :: _ => False
  | _ => True

/-- The core moves in this step, leaving the turns `ts`: no turn is listed, the next is the core's, or the host waits for
a BUSY core (log 5). -/
def State.CoreMoves (s : State) (ts : List Turn) : Prop :=
  s.turns = [] ∧ ts = [] ∨ s.turns = .core :: ts ∨ ((∃ us, s.turns = .wait :: us) ∧ s.busy = true ∧ ts = s.turns)

/-- How many bytes of DST the running command has written so far (10_state.md R36, R37). -/
def State.written (s : State) : Nat :=
  match s.phase with
  | .busy (.encoding e) => e.wr
  | .busy (.decoding d) => d.wr
  | _ => 0

/-- What the core's turns may read and change: the state without the model's own fields of the host's side. -/
def State.coreView (s : State) : State := { s with turns := [], readData := 0, draws := 0 }

/-- `k` steps of the machine in which no other agent moves. -/
def coreRun (k : Nat) (s : State) : Host.Outcome State Fault Refusal := Sys2Proof.core.run k (s.setTurns [])

/-- Left to itself, the core comes from `s` to `u` (40_commands.md R70, R71). -/
def State.RunsTo (s u : State) : Prop := ∃ k, coreRun k s = .next u

end Sys2Proof.Machine
end

