-- ==== Sys2Proof/Certificates/Slice0/Obligations.lean ====
section
/-! DEFINITION. The statements for the provers. Each docstring names the rules it formalises. -/

open Sys2Proof Sys2Proof.Machine

/-! ## Encoding -/

/-- Decoding the word of a well-formed instruction gives it back, whatever its operands (30_encoding.md R55 to R60,
R64). -/
def Obligations.DecodeOfEncode : Prop :=
  ∀ i : Instr, i.wellFormed = true → decode (encode i) = .ok i

/-- Every 16-bit value decodes to a well-formed LIT or BREF, whose encoding is that value, from a stream as from a
word (30_encoding.md R63). -/
def Obligations.EveryTokenValueIsAnInstruction : Prop :=
  ∀ (t : Half) (rest : List Byte),
    (decodeToken t).wellFormed = true ∧ encode (decodeToken t) = .token t ∧
      decodeTokenBytes (le16 t ++ rest) = .ok (decodeToken t, rest)

/-- The fields of a token at a container offset, as numbers: `count` is bits [4:0], `jump` bits [15:5], and
`jump = (C[p] >> 5) | (C[p+1] << 3)` (30_encoding.md R55, R56). -/
def Obligations.TokenFieldsOfTwoBytes : Prop :=
  ∀ b0 b1 : Byte,
    (rd16 b0 b1).toNat = b0.toNat + 256 * b1.toNat ∧
    (tokenCount (rd16 b0 b1)).toNat = (rd16 b0 b1).toNat % 32 ∧
    (tokenJump (rd16 b0 b1)).toNat = (rd16 b0 b1).toNat / 32 ∧
    (tokenCount (rd16 b0 b1)).toNat = b0.toNat % 32 ∧
    (tokenJump (rd16 b0 b1)).toNat = b0.toNat / 32 + 8 * b1.toNat

/-- Token packing, `t = (jump << 5) | count`, its bytes low first, and the six examples (30_encoding.md R57). -/
def Obligations.TokenPackingIsLittleEndian : Prop :=
  (∀ (count : BitVec 5) (jump : BitVec 11),
    (tokenWord count jump).toNat = jump.toNat * 32 + count.toNat ∧
    (tokenBytes count jump).map BitVec.toNat =
      [(jump.toNat * 32 + count.toNat) % 256, (jump.toNat * 32 + count.toNat) / 256]) ∧
  tokenBytes 0 1 = [0x20, 0x00] ∧ tokenBytes 0 2047 = [0xE0, 0xFF] ∧ tokenBytes 3 1 = [0x23, 0x00] ∧
  tokenBytes 31 1 = [0x3F, 0x00] ∧ tokenBytes 3 2046 = [0xC3, 0xFF] ∧ tokenBytes 31 2047 = [0xFF, 0xFF]

/-- The kind of a token is selected by `count` alone, and both operands are the token's fields
(30_encoding.md R58). -/
def Obligations.CountAloneSelectsTheKind : Prop :=
  ∀ t : Half,
    (tokenCount t = 0 → decodeToken t = .lit (tokenJump t)) ∧
    (tokenCount t ≠ 0 → decodeToken t = .bref (tokenCount t) (tokenJump t))

/-- CTRL words: bit [8] first, then bits [1:0]; bits [7:3] and [31:9] are ignored; the eight words of the table
(30_encoding.md R64). -/
def Obligations.CtrlWordSelectsTheCommand : Prop :=
  (∀ w : Reg,
    (w.getLsbD 8 = false → decodeCtrl w = .error .noStart) ∧
    (w.getLsbD 8 = true → w.toNat % 4 = 0 → decodeCtrl w = .ok (.encode (w.getLsbD 2))) ∧
    (w.getLsbD 8 = true → w.toNat % 4 = 1 → decodeCtrl w = .ok (.decode (w.getLsbD 2))) ∧
    (w.getLsbD 8 = true → w.toNat % 4 = 2 → decodeCtrl w = .ok (.estComp (w.getLsbD 2))) ∧
    (w.getLsbD 8 = true → w.toNat % 4 = 3 → decodeCtrl w = .ok (.estDecomp (w.getLsbD 2)))) ∧
  encode (.encode false) = .ctrl 0x100 ∧ encode (.encode true) = .ctrl 0x104 ∧
  encode (.decode false) = .ctrl 0x101 ∧ encode (.decode true) = .ctrl 0x105 ∧
  encode (.estComp false) = .ctrl 0x102 ∧ encode (.estComp true) = .ctrl 0x106 ∧
  encode (.estDecomp false) = .ctrl 0x103 ∧ encode (.estDecomp true) = .ctrl 0x107

/-- A few words written out bit by bit from the spec's encodings (30_encoding.md R55, R64): `LIT 2`, `REF 9,3`,
`REF 3,2046`, and the four commands. -/
def Obligations.WordsOfTheSpecDecode : Prop :=
  decodeToken 0b0000000001000000 = .lit 2 ∧
  decodeToken 0b0000000001101001 = .bref 9 3 ∧
  decodeToken 0b1111111111000011 = .bref 3 2046 ∧
  decodeCtrl 0b00000000000000000000000100000000 = .ok (.encode false) ∧
  decodeCtrl 0b00000000000000000000000100000101 = .ok (.decode true) ∧
  decodeCtrl 0b00000000000000000000000100000010 = .ok (.estComp false) ∧
  decodeCtrl 0b11111111111111111111111111111111 = .ok (.estDecomp true)

/-! ## A step runs the decoded instruction -/

/-- In a running DECODE with a whole token left, a step in which the core moves is `exec` of the token at `rd`, on the
state after the fetch: `p` is the token's offset, `rd` lies 2 past it, `tok` is the token (42_decoder.md R86, R89). -/
def Obligations.StepRunsTheTokenAtTheReadCursor : Prop :=
  ∀ (s : State) (d : DecRegs) (ts : List Turn),
    s.phase = .busy (.decoding d) → d.rd + 2 ≤ d.len →
    let t := rd16 (s.src.read d.rd) (s.src.read (d.rd + 1))
    let w : Phase := .busy (.decoding { d with p := d.rd, tok := t, rd := d.rd + 2 })
    (s.turns = [] → step s = exec (decodeToken t) { s with phase := w }) ∧
    (s.turns = .core :: ts → step s = exec (decodeToken t) { s with phase := w, turns := ts }) ∧
    (s.turns = .wait :: ts → step s = exec (decodeToken t) { s with phase := w })

/-- A host write of a command word to CTRL is `exec` of its instruction (10_state.md R19, 30_encoding.md R64), BUSY or
not: what a command word does while BUSY is `exec`'s to say. -/
def Obligations.StepRunsTheCommandWordWritten : Prop :=
  ∀ (s : State) (w : Reg) (i : Instr) (ts : List Turn),
    s.turns = .host (.writeReg 0x00 32 w) :: ts → decode (.ctrl w) = .ok i →
    step s = exec i { s with turns := ts }

/-! ## START -/

/-- An accepted START, for each command: OP and IRQ_EN set, DONE, LEN_MISMATCH and RESULT cleared, BUSY with the
command at its beginning, the interrupt low, nothing else changed; while BUSY it is ignored entirely
(40_commands.md R67). `portsMeet` is R120's case, refused. -/
def Obligations.StartBeginsTheCommand : Prop :=
  ∀ (s : State) (irqEn : Bool),
    (s.phase = .idle → s.portsMeet = false →
      exec (.encode irqEn) s = .next { s with
        op := 0, irqEn := irqEn, done := false, lenMismatch := false, result := .ok, phase := .busy .encodeStart } ∧
      exec (.decode irqEn) s = .next { s with
        op := 1, irqEn := irqEn, done := false, lenMismatch := false, result := .ok, phase := .busy .decodeStart } ∧
      exec (.estComp irqEn) s = .next { s with
        op := 2, irqEn := irqEn, done := false, lenMismatch := false, result := .ok, phase := .busy .estComp } ∧
      exec (.estDecomp irqEn) s = .next { s with
        op := 3, irqEn := irqEn, done := false, lenMismatch := false, result := .ok, phase := .busy .estDecomp }) ∧
    (s.busy = true →
      exec (.encode irqEn) s = .next s ∧ exec (.decode irqEn) s = .next s ∧
      exec (.estComp irqEn) s = .next s ∧ exec (.estDecomp irqEn) s = .next s) ∧
    (∀ i t, (i = .encode irqEn ∨ i = .decode irqEn ∨ i = .estComp irqEn ∨ i = .estDecomp irqEn) →
      s.phase = .idle → exec i s = .next t → t.busy = true ∧ t.statusWord = 0x1 ∧ t.irq = false)

/-- The same at the level of the register write: bit [8] = 1 in IDLE starts the command bits [1:0] select, with STATUS
reading BUSY alone and the interrupt low (40_commands.md R67); bit [8] = 0 only updates OP and IRQ_EN, and in BUSY neither
does anything (10_state.md R17, R18, R19, R20). The premise on the ports leaves out the launch that R120 refuses. -/
def Obligations.CtrlWriteStartsOrSelects : Prop :=
  ∀ (s : State) (w : Reg) (ts : List Turn),
    s.turns = .host (.writeReg 0x00 32 w) :: ts →
    (s.phase = .idle → w.getLsbD 8 = true → s.portsMeet = false →
      let t := { s with
        turns := ts, op := w.extractLsb' 0 2, irqEn := w.getLsbD 2, done := false, lenMismatch := false, result := .ok,
        phase := .busy (commandWork (w.extractLsb' 0 2)) }
      step s = .next t ∧ t.statusWord = 0x1 ∧ t.irq = false) ∧
    (s.phase = .idle → w.getLsbD 8 = false →
      step s = .next { s with turns := ts, op := w.extractLsb' 0 2, irqEn := w.getLsbD 2 }) ∧
    (s.busy = true → step s = .next { s with turns := ts })

/-- In IDLE a launch, of any of the four commands and whatever the registers hold, is refused exactly when some offset of
SRC and some offset of DST are one byte of system memory (70_reset_and_hazards.md R120). That each port is a window from
its base up, as long as `PORT_MAP` says and at most 2^32 bytes, is the model's reading of PORT_MAP (log 2). -/
def Obligations.LaunchRefusedExactlyWhenPortsMeet : Prop :=
  ∀ (s : State) (irqEn : Bool) (i : Instr), s.phase = .idle →
    (i = .encode irqEn ∨ i = .decode irqEn ∨ i = .estComp irqEn ∨ i = .estDecomp irqEn) →
    let shared :=
      ∃ a b, a < s.params.portMap.srcSize ∧ a < 2 ^ 32 ∧ b < s.params.portMap.dstSize ∧ b < 2 ^ 32 ∧
        s.params.portMap.srcBase + a = s.params.portMap.dstBase + b
    (shared → exec i s = .refused .portsOverlap) ∧ (¬ shared → ∃ t, exec i s = .next t)

/-! ## The estimator -/

/-- EST_COMP, from its START to its completion (43_estimators.md R97): the estimate, the refusal above 65535, the
corner cases, and nothing else changed. -/
def Obligations.EstCompGivesTheSizingFormula : Prop :=
  encode (.estComp false) = .ctrl 0x102 ∧ encode (.estComp true) = .ctrl 0x106 ∧
  ∀ (s : State) (irqEn : Bool), s.phase = .idle → s.portsMeet = false →
    ∃ t, exec (.estComp irqEn) s = .next t ∧
      let u := { s with op := 2, irqEn := irqEn, done := true, lenMismatch := false, rdPos := 0, turns := [] }
      (65535 < s.srcLen.toNat → t.RunsTo { u with outLen := 0, declLen := 0, result := .unrepresentable }) ∧
      (s.srcLen.toNat ≤ 65535 → ∃ v, t.RunsTo v ∧
        v = { u with outLen := v.outLen, declLen := s.srcLen, result := .ok } ∧
        v.outLen.toNat = s.srcLen.toNat + (s.srcLen.toNat / 2047 + 2) * 2 + 7 ∧ v.outLen.toNat ≤ 65610 ∧
        (s.srcLen = 0 → v.outLen = 11) ∧ (s.srcLen = 2047 → v.outLen = 2060) ∧
        (s.srcLen = 65535 → v.outLen = 65610))

/-- EST_DECOMP, from its START to its completion (43_estimators.md R98): the declared length when the header is a
container's, else 0 with BAD_CONTAINER; nothing else changed, so the token stream is not looked at. -/
def Obligations.EstDecompGivesTheDeclaredLength : Prop :=
  encode (.estDecomp false) = .ctrl 0x103 ∧ encode (.estDecomp true) = .ctrl 0x107 ∧
  ∀ (s : State) (irqEn : Bool), s.phase = .idle → s.portsMeet = false →
    ∃ t, exec (.estDecomp irqEn) s = .next t ∧
      let ok := 7 ≤ s.srcLen.toNat ∧ ∀ (i : Nat) (h : i < 5), s.src.read i = s.params.magic[i]
      let decl := (rd16 (s.src.read 5) (s.src.read 6)).setWidth 32
      let u := { s with op := 3, irqEn := irqEn, done := true, lenMismatch := false, rdPos := 0, turns := [] }
      (ok → t.RunsTo { u with outLen := decl, declLen := decl, result := .ok }) ∧
      (¬ ok → t.RunsTo { u with outLen := 0, declLen := 0, result := .badContainer })

/-! ## The encoder -/

/-- `MatchLen(pos, j)` is the longest run of equal bytes within the input and the cap (41_encoder.md R75). -/
def Obligations.MatchLenIsTheLongestCappedRun : Prop :=
  ∀ (inp : Nat → Byte) (len pos j : Nat), 1 ≤ j → j ≤ pos → pos ≤ len →
    let k := matchLen inp len pos j
    k ≤ 31 ∧ pos + k ≤ len ∧ (∀ i, i < k → inp (pos - j + i) = inp (pos + i)) ∧
    (k = 31 ∨ pos + k = len ∨ inp (pos - j + k) ≠ inp (pos + k))

/-- The best match is the longest over the candidates 1 to min(2046, pos), at the smallest distance that reaches it
(41_encoder.md R74, R76). -/
def Obligations.BestMatchIsLongestThenNearest : Prop :=
  ∀ (inp : Nat → Byte) (len pos : Nat),
    let best := bestMatch inp len pos
    (∀ j, 1 ≤ j → j ≤ min 2046 pos → matchLen inp len pos j ≤ best.1) ∧
    (best.1 = 0 → best.2 = 0) ∧
    (0 < best.1 → 1 ≤ best.2 ∧ best.2 ≤ min 2046 pos ∧ matchLen inp len pos best.2 = best.1 ∧
      ∀ j, 1 ≤ j → j < best.2 → matchLen inp len pos j < best.1)

/-- What the encoder emits (41_encoder.md R80): the header, then items within R77's and R78's ranges; literal items are
adjacent only after a full one; the first item is literal; the length formula; the empty input. -/
def Obligations.EncodeEmitsOnlyTheItemsOfTheSpec : Prop :=
  ∀ (magic : Vector Byte 5) (inp : Nat → Byte) (len : Nat), len ≤ 65535 →
    ∃ items : List Item,
      encodeStream magic inp len = magic.toList ++ le16 (BitVec.ofNat 16 len) ++ items.flatMap Item.bytes ∧
      (∀ x ∈ items, x.emitted) ∧ items.IsChain Item.mayPrecede ∧
      (0 < len → ∃ bs rest, items = .raw bs :: rest) ∧ (len = 0 → items = []) ∧
      (encodeStream magic inp len).length = 7 + (items.map Item.size).sum

/-- The safe capacity: an input of length L encodes to at most L + L div 4 + 2 * (L div 2047) + 9 bytes, and the input
of V-E14 encodes to 35, above EST_COMP's 34 (41_encoder.md R84). -/
def Obligations.EncodedLengthBound : Prop :=
  (∀ (magic : Vector Byte 5) (inp : Nat → Byte) (len : Nat), len ≤ 65535 →
    (encodeStream magic inp len).length ≤ len + len / 4 + 2 * (len / 2047) + 9) ∧
  (∀ magic : Vector Byte 5,
    (encodeStream magic (fun i => ("abc0abc1abc2abc3abc4abc".toList.map fun c => BitVec.ofNat 8 c.toNat).getD i 0)
      23).length = 35) ∧
  compressedEstimate 23 = 34

/-- ENCODE of an unrepresentable length: RESULT and the lengths as the rule says, no byte of DST written, and no byte of
SRC looked at, since what it leaves does not depend on SRC (41_encoder.md R82). -/
def Obligations.EncodeRefusesUnrepresentableLengths : Prop :=
  ∀ (s : State) (irqEn : Bool), s.phase = .idle → s.portsMeet = false → 65535 < s.srcLen.toNat →
    ∃ t, exec (.encode irqEn) s = .next t ∧
      t.RunsTo { s with
        op := 0, irqEn := irqEn, done := true, lenMismatch := false, result := .unrepresentable,
        outLen := 0, declLen := 0, rdPos := 0, turns := [] }

/-- ENCODE, stepped from its START to its completion by the core alone, leaves exactly the outputs of the command
function (41_encoder.md R81 in the form of 40_commands.md R66): the two views of 40_commands.md R71 agree. -/
def Obligations.EncodeStepsToTheCommandFunction : Prop :=
  ∀ (s : State) (irqEn : Bool), s.phase = .idle → s.portsMeet = false →
    ∃ t, exec (.encode irqEn) s = .next t ∧
      t.RunsTo (s.commandDone opEncode irqEn
        (encodeOutputs s.params.magic s.src.read s.srcLen.toNat s.dstCap.toNat))

/-- After ENCODE completes with OK: the container at DST from 0 up, its length, L, 0 and 0 (41_encoder.md R85); every
other byte of DST is as before. OK is reached exactly when the container fits. -/
def Obligations.EncodeOkLeavesTheContainer : Prop :=
  ∀ (s : State) (irqEn : Bool), s.phase = .idle → s.portsMeet = false → s.srcLen.toNat ≤ 65535 →
    let cont := encodeStream s.params.magic s.src.read s.srcLen.toNat
    ∃ t u, exec (.encode irqEn) s = .next t ∧ t.RunsTo u ∧ u.busy = false ∧ u.done = true ∧ u.src = s.src ∧
      (u.result = .ok ↔ cont.length ≤ s.dstCap.toNat) ∧
      (u.result = .ok →
        (∀ (i : Nat) (h : i < cont.length), u.dst.read i = cont[i]) ∧ (∀ a, cont.length ≤ a → u.dst.read a = s.dst.read a) ∧
        u.outLen.toNat = cont.length ∧ u.declLen = s.srcLen ∧ u.rdPos = 0 ∧ u.lenMismatch = false)

/-- ENCODE of a container longer than DST_CAP: the first DST_CAP bytes, DST_OVERFLOW and OUT_LEN = DST_CAP; no byte at
or above DST_CAP changes (41_encoder.md R84, 60_exceptions.md R104). -/
def Obligations.EncodeOverflowWritesThePrefix : Prop :=
  ∀ (s : State) (irqEn : Bool), s.phase = .idle → s.portsMeet = false → s.srcLen.toNat ≤ 65535 →
    let cont := encodeStream s.params.magic s.src.read s.srcLen.toNat
    s.dstCap.toNat < cont.length →
    ∃ t u, exec (.encode irqEn) s = .next t ∧ t.RunsTo u ∧ u.busy = false ∧ u.done = true ∧
      u.result = .dstOverflow ∧ u.outLen = s.dstCap ∧ u.declLen = s.srcLen ∧ u.rdPos = 0 ∧ u.lenMismatch = false ∧
      (∀ i, i < s.dstCap.toNat → cont[i]? = some (u.dst.read i)) ∧
      (∀ a, s.dstCap.toNat ≤ a → u.dst.read a = s.dst.read a)

/-! ## The decoder -/

/-- LIT n in a running DECODE whose checks pass: the n raw bytes at `rd` go to DST from `wr` up, both cursors advance by
n, no other byte of DST and nothing else of the state changes; n = 0 included (42_decoder.md R90). -/
def Obligations.LitCopiesTheRawBytes : Prop :=
  ∀ (s : State) (d : DecRegs) (n : BitVec 11), s.phase = .busy (.decoding d) →
    n.toNat ≤ d.len - d.rd → d.wr + n.toNat ≤ d.bound →
    ∃ t, exec (.lit n) s = .next t ∧
      t = { s with
        dst := t.dst, phase := .busy (.decoding { d with rd := d.rd + n.toNat, wr := d.wr + n.toNat }) } ∧
      (∀ i, i < n.toNat → t.dst.read (d.wr + i) = s.src.read (d.rd + i)) ∧
      (∀ a, a < d.wr ∨ d.wr + n.toNat ≤ a → t.dst.read a = s.dst.read a)

/-- The literal checks, in their order: TRUNC_LITERAL, then OUT_OVERRUN. The command ends with `RD_POS` at the token's
offset, and DST is untouched (42_decoder.md R91). -/
def Obligations.LitChecksEndTheCommand : Prop :=
  ∀ (s : State) (d : DecRegs) (n : BitVec 11), s.phase = .busy (.decoding d) →
    let stopped := fun (code : Result) => { s with
      phase := .idle, done := true, result := code, lenMismatch := false, outLen := BitVec.ofNat 32 d.wr,
      declLen := BitVec.ofNat 32 d.decl, rdPos := BitVec.ofNat 32 d.p }
    (d.len - d.rd < n.toNat → exec (.lit n) s = .next (stopped .truncLiteral)) ∧
    (n.toNat ≤ d.len - d.rd → d.bound < d.wr + n.toNat → exec (.lit n) s = .next (stopped .outOverrun))

/-- BREF in a running DECODE whose checks pass: byte i of the copy is what DST held at `w0 - jump + (i mod jump)` before
the token (42_decoder.md R94), which is also the byte `jump` back AFTER it, this token's own writes included (R92); no
other byte of DST and nothing else of the state changes. -/
def Obligations.BrefCopiesByteSerially : Prop :=
  ∀ (s : State) (d : DecRegs) (count : BitVec 5) (jump : BitVec 11), s.phase = .busy (.decoding d) →
    1 ≤ jump.toNat → jump.toNat ≤ d.wr → d.wr + count.toNat ≤ d.bound →
    ∃ t, exec (.bref count jump) s = .next t ∧
      t = { s with dst := t.dst, phase := .busy (.decoding { d with wr := d.wr + count.toNat }) } ∧
      (∀ i, i < count.toNat →
        t.dst.read (d.wr + i) = s.dst.read (d.wr - jump.toNat + i % jump.toNat) ∧
        t.dst.read (d.wr + i) = t.dst.read (d.wr + i - jump.toNat)) ∧
      (∀ a, a < d.wr ∨ d.wr + count.toNat ≤ a → t.dst.read a = s.dst.read a)

/-- The back-reference checks, in their order: BAD_DISTANCE, then OUT_OVERRUN. The command ends with `RD_POS` at the
token's offset, and DST is untouched (42_decoder.md R93). -/
def Obligations.BrefChecksEndTheCommand : Prop :=
  ∀ (s : State) (d : DecRegs) (count : BitVec 5) (jump : BitVec 11), s.phase = .busy (.decoding d) →
    let stopped := fun (code : Result) => { s with
      phase := .idle, done := true, result := code, lenMismatch := false, outLen := BitVec.ofNat 32 d.wr,
      declLen := BitVec.ofNat 32 d.decl, rdPos := BitVec.ofNat 32 d.p }
    (jump.toNat = 0 ∨ d.wr < jump.toNat → exec (.bref count jump) s = .next (stopped .badDistance)) ∧
    (1 ≤ jump.toNat → jump.toNat ≤ d.wr → d.bound < d.wr + count.toNat →
      exec (.bref count jump) s = .next (stopped .outOverrun))

/-- A token executed while no DECODE is past its header check would read undefined working registers: the model's one
fault (10_state.md R37, 93 U8; log 8). -/
def Obligations.TokensFaultOutsideARunningDecode : Prop :=
  ∀ (s : State) (n : BitVec 11) (count : BitVec 5) (jump : BitVec 11),
    (∀ d, s.phase ≠ .busy (.decoding d)) →
    exec (.lit n) s = .fault .workingRegistersUndefined ∧ exec (.bref count jump) s = .fault .workingRegistersUndefined

/-- The header check: 7 bytes and the five of MAGIC. A failed check ends DECODE before any DST write
(42_decoder.md R87), looking at no SRC byte when fewer than 7 are there: what is left does not depend on SRC. -/
def Obligations.DecodeRefusesABadHeader : Prop :=
  ∀ (s : State) (irqEn : Bool), s.phase = .idle → s.portsMeet = false →
    ¬ (7 ≤ s.srcLen.toNat ∧ ∀ (i : Nat) (h : i < 5), s.src.read i = s.params.magic[i]) →
    ∃ t, exec (.decode irqEn) s = .next t ∧
      t.RunsTo { s with
        op := 1, irqEn := irqEn, done := true, lenMismatch := false, result := .badContainer,
        outLen := 0, declLen := 0, rdPos := 0, turns := [] }

/-- A header that passes: the next step of DECODE sets `N`, `D`, `bound = min(D, DST_CAP)`, `rd = 7` and `wr = 0`
(42_decoder.md R86, R88). What `p` and `t` hold before the first fetch is the model's choice (log 10) and not stated. -/
def Obligations.DecodeBeginsAfterTheHeader : Prop :=
  ∀ (s : State) (ts : List Turn), s.phase = .busy .decodeStart → s.CoreMoves ts → 7 ≤ s.srcLen.toNat →
    (∀ (i : Nat) (h : i < 5), s.src.read i = s.params.magic[i]) →
    let decl := (s.src.read 5).toNat + 256 * (s.src.read 6).toNat
    ∃ d : DecRegs, step s = .next { s with turns := ts, phase := .busy (.decoding d) } ∧
      d.len = s.srcLen.toNat ∧ d.decl = decl ∧ d.bound = min decl s.dstCap.toNat ∧ d.rd = 7 ∧ d.wr = 0

/-- One byte left where a token should start: TRUNC_TOKEN, with RD_POS = N - 1 (42_decoder.md R89). -/
def Obligations.SingleTrailingByteIsTruncToken : Prop :=
  ∀ (s : State) (d : DecRegs) (ts : List Turn), s.phase = .busy (.decoding d) → s.CoreMoves ts → d.rd + 1 = d.len →
    step s = .next { s with
      turns := ts, phase := .idle, done := true, result := .truncToken, lenMismatch := false, outLen := BitVec.ofNat 32 d.wr,
      declLen := BitVec.ofNat 32 d.decl, rdPos := BitVec.ofNat 32 (d.len - 1) }

/-- The end of the stream: OK with OUT_LEN = wr, DECL_LEN = D, RD_POS = N and LEN_MISMATCH = 1 exactly when wr differs
from D, which then means fewer bytes than declared (42_decoder.md R95). -/
def Obligations.StreamEndCompletesWithOk : Prop :=
  ∀ (s : State) (d : DecRegs) (ts : List Turn),
    s.phase = .busy (.decoding d) → s.CoreMoves ts → s.Inv → d.rd = d.len →
    ∃ t, step s = .next t ∧
      t = { s with
        turns := ts, phase := .idle, done := true, result := .ok, lenMismatch := t.lenMismatch,
        outLen := BitVec.ofNat 32 d.wr, declLen := BitVec.ofNat 32 d.decl, rdPos := s.srcLen } ∧
      (t.lenMismatch = true ↔ d.wr ≠ d.decl) ∧ (t.lenMismatch = true → t.outLen.toNat < t.declLen.toNat)

/-- DECODE, stepped from its START to its completion by the core alone, leaves exactly the outputs of the command
function (42_decoder.md R86 in the form of 40_commands.md R66): the two views of 40_commands.md R71 agree. -/
def Obligations.DecodeStepsToTheCommandFunction : Prop :=
  ∀ (s : State) (irqEn : Bool), s.phase = .idle → s.portsMeet = false →
    ∃ t, exec (.decode irqEn) s = .next t ∧
      t.RunsTo (s.commandDone opDecode irqEn
        (decodeOutputs s.params.magic s.src.read s.srcLen.toNat s.dstCap.toNat))

/-- The contents of DST before a DECODE never influence its result (20_memory.md R46), nor does anything a previous
command left (10_state.md R39): two states that agree on SRC_LEN, DST_CAP, SRC and the parameters end with the same
registers and the same bytes below OUT_LEN. -/
def Obligations.DecodeIgnoresWhatWasBefore : Prop :=
  ∀ (s s' : State) (irqEn : Bool), s.phase = .idle → s'.phase = .idle → s.portsMeet = false →
    s.params = s'.params → s.srcLen = s'.srcLen → s.dstCap = s'.dstCap →
    (∀ i, i < s.srcLen.toNat → s.src.read i = s'.src.read i) →
    ∃ t t' u u', exec (.decode irqEn) s = .next t ∧ exec (.decode irqEn) s' = .next t' ∧ t.RunsTo u ∧ t'.RunsTo u' ∧
      u.busy = false ∧ u'.busy = false ∧ u.statusWord = u'.statusWord ∧ u.outLen = u'.outLen ∧
      u.declLen = u'.declLen ∧ u.rdPos = u'.rdPos ∧
      (∀ a, a < u.outLen.toNat → u.dst.read a = u'.dst.read a) ∧
      (∀ a, u.outLen.toNat ≤ a → u.dst.read a = s.dst.read a)

/-! ## Round trip -/

/-- Decoding `Encode(B)` gives B back, with its length, no mismatch and no error (42_decoder.md R96). -/
def Obligations.DecodeOfEncodedBytesIsTheInput : Prop :=
  ∀ (magic : Vector Byte 5) (inp src : Nat → Byte) (len cap : Nat), len ≤ 65535 → len ≤ cap →
    let cont := encodeStream magic inp len
    (∀ (i : Nat) (h : i < cont.length), src i = cont[i]) →
    decodeOutputs magic src cont.length cap =
      { written := readRange inp 0 len, outLen := len, declLen := len, rdPos := cont.length, result := .ok,
        lenMismatch := false }

/-- The round-trip law on the machine (40_commands.md R72): an ENCODE with room for the container ends OK with container
C = DST[0..OUT_LEN); a DECODE of C with room for the input ends OK with the input, its length and no mismatch. -/
def Obligations.EncodeThenDecodeRoundTrip : Prop :=
  ∀ (s : State) (irqEn : Bool), s.phase = .idle → s.portsMeet = false → s.srcLen.toNat ≤ 65535 →
    (encodeStream s.params.magic s.src.read s.srcLen.toNat).length ≤ s.dstCap.toNat →
    ∃ t u, exec (.encode irqEn) s = .next t ∧ t.RunsTo u ∧ u.busy = false ∧ u.result = .ok ∧
      ∀ (s' : State) (irqEn' : Bool), s'.phase = .idle → s'.portsMeet = false → s'.params = s.params →
        s'.srcLen = u.outLen → (∀ i, i < u.outLen.toNat → s'.src.read i = u.dst.read i) →
        s.srcLen.toNat ≤ s'.dstCap.toNat →
        ∃ t' u', exec (.decode irqEn') s' = .next t' ∧ t'.RunsTo u' ∧ u'.busy = false ∧ u'.result = .ok ∧
          u'.outLen = s.srcLen ∧ u'.lenMismatch = false ∧
          ∀ i, i < s.srcLen.toNat → u'.dst.read i = s.src.read i

/-- EST_DECOMP on the container an ENCODE wrote gives OK and the input's length, whether the ENCODE ended with OK or
with DST_OVERFLOW and at least 7 bytes (43_estimators.md R100). -/
def Obligations.EstDecompOfAnEncodedContainer : Prop :=
  ∀ (s : State) (irqEn : Bool), s.phase = .idle → s.portsMeet = false → s.srcLen.toNat ≤ 65535 →
    ∃ t u, exec (.encode irqEn) s = .next t ∧ t.RunsTo u ∧ u.busy = false ∧
      (7 ≤ u.outLen.toNat →
        ∀ (s' : State) (irqEn' : Bool), s'.phase = .idle → s'.portsMeet = false → s'.params = s.params → s'.srcLen = u.outLen →
          (∀ i, i < u.outLen.toNat → s'.src.read i = u.dst.read i) →
          ∃ t' u', exec (.estDecomp irqEn') s' = .next t' ∧ t'.RunsTo u' ∧ u'.busy = false ∧ u'.result = .ok ∧
            u'.outLen = s.srcLen)

/-! ## The register interface -/

/-- What each register reads in IDLE, the unmapped offset included; a read changes nothing else (10_state.md R15, R16,
R20, R25). -/
def Obligations.RegisterReadsWhileIdle : Prop :=
  ∀ (s : State) (ts : List Turn), s.phase = .idle →
    let reads := fun (off : BitVec 5) (v : Reg) =>
      step { s with turns := .host (.readReg off 32) :: ts } = .next { s with turns := ts, readData := v }
    reads 0x00 (BitVec.ofNat 32 (s.op.toNat + 4 * s.irqEn.toNat)) ∧
    reads 0x04 (BitVec.ofNat 32 (2 * s.done.toNat + 4 * s.lenMismatch.toNat + 16 * s.result.code.toNat)) ∧
    reads 0x08 s.srcLen ∧ reads 0x0C s.dstCap ∧ reads 0x10 s.outLen ∧ reads 0x14 s.declLen ∧ reads 0x18 s.rdPos ∧
    reads 0x1C 0

/-- What a host read returns while BUSY: STATUS 0x1, CTRL, SRC_LEN and DST_CAP their values, OUT_LEN, DECL_LEN and RD_POS
a draw each time (10_state.md R32), the unmapped offset 0 (R16). Stated of the machine's invariant, which says that START
cleared STATUS. -/
def Obligations.RegisterReadsWhileBusy : Prop :=
  ∀ (s : State) (ts : List Turn), s.busy = true → s.Inv →
    let reads := fun (off : BitVec 5) (v : Reg) =>
      step { s with turns := .host (.readReg off 32) :: ts } = .next { s with turns := ts, readData := v }
    let draws := fun (off : BitVec 5) =>
      step { s with turns := .host (.readReg off 32) :: ts } =
        .next { s with turns := ts, readData := Config.freeValue s.draws, draws := s.draws + 1 }
    reads 0x00 (BitVec.ofNat 32 (s.op.toNat + 4 * s.irqEn.toNat)) ∧ reads 0x04 0x1 ∧
    reads 0x08 s.srcLen ∧ reads 0x0C s.dstCap ∧ draws 0x10 ∧ draws 0x14 ∧ draws 0x18 ∧
    reads 0x1C 0

/-- Register writes in IDLE: SRC_LEN and DST_CAP take the value, STATUS clears DONE by bit [1] alone and changes no other
field, read-only registers and the unmapped offset ignore it (10_state.md R16, R22, R26, R27). -/
def Obligations.RegisterWritesWhileIdle : Prop :=
  ∀ (s : State) (ts : List Turn) (v : Reg), s.phase = .idle →
    let writes := fun (off : BitVec 5) (t : State) =>
      step { s with turns := .host (.writeReg off 32 v) :: ts } = .next { t with turns := ts }
    writes 0x04 { s with done := s.done && !v.getLsbD 1 } ∧
    writes 0x08 { s with srcLen := v } ∧ writes 0x0C { s with dstCap := v } ∧
    writes 0x10 s ∧ writes 0x14 s ∧ writes 0x18 s ∧ writes 0x1C s

/-- While BUSY every host write to a register is ignored, a START included (10_state.md R31). -/
def Obligations.RegisterWritesWhileBusyAreIgnored : Prop :=
  ∀ (s : State) (ts : List Turn) (off : BitVec 5) (v : Reg), s.busy = true → off.toNat % 4 = 0 →
    step { s with turns := .host (.writeReg off 32 v) :: ts } = .next { s with turns := ts }

/-- An access of another width, or at an offset not a multiple of 4, is refused in either phase (10_state.md R16). -/
def Obligations.MalformedRegisterAccessIsRefused : Prop :=
  ∀ (s : State) (ts : List Turn) (off : BitVec 5) (width : Nat) (v : Reg), width ≠ 32 ∨ off.toNat % 4 ≠ 0 →
    step { s with turns := .host (.readReg off width) :: ts } = .refused .registerAccess ∧
    step { s with turns := .host (.writeReg off width v) :: ts } = .refused .registerAccess

/-- The host's accesses to the buffers: in IDLE a write changes that one byte and a read returns it; in BUSY a write is
refused and a read of DST is a draw that changes nothing else (20_memory.md R40, 70_reset_and_hazards.md R119). That a
write through one port leaves the other buffer as it was, whatever PORT_MAP is, is the model's choice (log 3, DESIGN
CHOICE): no rule says it of ports that share bytes. -/
def Obligations.HostBufferAccesses : Prop :=
  ∀ (s : State) (ts : List Turn) (a : BitVec 32) (v : Byte),
    (s.phase = .idle →
      (∃ t, step { s with turns := .host (.writeSrc a v) :: ts } = .next t ∧
        t = { s with turns := ts, src := t.src } ∧ t.src.read a.toNat = v ∧
        ∀ b, b ≠ a.toNat → t.src.read b = s.src.read b) ∧
      (∃ t, step { s with turns := .host (.writeDst a v) :: ts } = .next t ∧
        t = { s with turns := ts, dst := t.dst } ∧ t.dst.read a.toNat = v ∧
        ∀ b, b ≠ a.toNat → t.dst.read b = s.dst.read b) ∧
      step { s with turns := .host (.readDst a) :: ts } =
        .next { s with turns := ts, readData := (s.dst.read a.toNat).setWidth 32 }) ∧
    (s.busy = true →
      step { s with turns := .host (.writeSrc a v) :: ts } = .refused .bufferWriteWhileBusy ∧
      step { s with turns := .host (.writeDst a v) :: ts } = .refused .bufferWriteWhileBusy ∧
      ∃ x : Reg, step { s with turns := .host (.readDst a) :: ts } =
        .next { s with turns := ts, readData := x, draws := s.draws + 1 })

/-! ## Reset -/

/-- After reset, at power-on and by a reset turn in IDLE: every register 0, IDLE, RESULT OK, the interrupt low; the reset
turn leaves SRC and DST as they were (70_reset_and_hazards.md R116). -/
def Obligations.ResetClearsEveryRegister : Prop :=
  let cleared := fun (s : State) =>
    s.ctrlWord = 0 ∧ s.statusWord = 0 ∧ s.srcLen = 0 ∧ s.dstCap = 0 ∧ s.outLen = 0 ∧ s.declLen = 0 ∧ s.rdPos = 0 ∧
    s.phase = .idle ∧ s.result = .ok ∧ s.done = false ∧ s.busy = false ∧ s.lenMismatch = false ∧ s.op = 0 ∧
    s.irqEn = false ∧ s.irq = false
  cleared State.reset ∧
  ∀ (s : State) (ts : List Turn), s.phase = .idle → s.turns = .reset :: ts →
    ∃ t, step s = .next t ∧ cleared t ∧ t.src = s.src ∧ t.dst = s.dst ∧ t.params = s.params

/-- A reset while BUSY abandons the command: registers as after reset, DONE not set, SRC unchanged, the DST bytes of the
command's write range a draw each, every other DST byte as before (70_reset_and_hazards.md R117). -/
def Obligations.ResetWhileBusyAbandonsTheCommand : Prop :=
  ∀ (s : State) (w : Work) (ts : List Turn), s.phase = .busy w → s.Inv → s.turns = .reset :: ts →
    let header := 7 ≤ s.srcLen.toNat ∧ ∀ (i : Nat) (h : i < 5), s.src.read i = s.params.magic[i]
    ∃ (t : State) (n : Nat), step s = .next t ∧
      t = { s with
        op := 0, irqEn := false, done := false, lenMismatch := false, result := .ok, srcLen := 0, dstCap := 0,
        outLen := 0, declLen := 0, rdPos := 0, phase := .idle, turns := ts, dst := t.dst, draws := s.draws + n } ∧
      (s.op = opEncode → n = s.dstCap.toNat) ∧
      (s.op = opDecode → header ∨ (∃ d, w = .decoding d) → n = min s.declaredLen s.dstCap.toNat) ∧
      (s.op = opEstComp ∨ s.op = opEstDecomp → n = 0) ∧
      (∀ a, a < n → t.dst.read a = Config.freeByte (s.draws + a)) ∧ (∀ a, n ≤ a → t.dst.read a = s.dst.read a)

/-! ## Whole-machine rules -/

/-- The invariant holds at reset. -/
def Obligations.InvariantHoldsAtReset : Prop := State.reset.Inv

/-- Every step keeps the invariant: canonical port memories, the working registers' ranges (10_state.md R36, R37), STATUS
while BUSY (R32), DECL_LEN below 65536 (R29), LEN_MISMATCH only for under-production (42_decoder.md R95). -/
def Obligations.EveryStepKeepsTheInvariant : Prop :=
  ∀ s t : State, s.Inv → step s = .next t → t.Inv

/-- No step faults, and a step is refused only for a turn the spec gives no meaning to. -/
def Obligations.AllowedTurnsAlwaysHaveANextState : Prop :=
  ∀ s : State, (∀ r, step s ≠ .fault r) ∧ (s.TurnAllowed → ∃ t, step s = .next t)

/-- The only ways from IDLE to BUSY and back: a START accepted, and a completion or a reset (10_state.md R14). A
completion sets DONE (40_commands.md R69). -/
def Obligations.PhaseChangesOnlyAsTheSpecSays : Prop :=
  ∀ s t : State, step s = .next t →
    (s.busy = false → t.busy = true →
      ∃ w ts, s.turns = .host (.writeReg 0x00 32 w) :: ts ∧ w.getLsbD 8 = true) ∧
    (s.busy = true → t.busy = false → (∃ ts, s.turns = .reset :: ts) ∨ t.done = true) ∧
    (s.busy = true → t.busy = true → t.op = s.op ∧ t.irqEn = s.irqEn ∧ t.srcLen = s.srcLen ∧ t.dstCap = s.dstCap ∧
      t.outLen = s.outLen ∧ t.declLen = s.declLen ∧ t.rdPos = s.rdPos)

/-- DONE is set only by a completion, and cleared only by an accepted START, a W1C write in IDLE or a reset
(10_state.md R22). -/
def Obligations.DoneChangesOnlyAsTheSpecSays : Prop :=
  ∀ s t : State, step s = .next t →
    (s.done = false → t.done = true → s.busy = true ∧ t.busy = false) ∧
    (s.done = true → t.done = false →
      (s.busy = false ∧ t.busy = true) ∨ (∃ ts, s.turns = .reset :: ts) ∨
      (∃ v ts, s.turns = .host (.writeReg 0x04 32 v) :: ts ∧ v.getLsbD 1 = true ∧ s.busy = false)) ∧
    (s.busy = true → t.busy = false → (∃ ts, s.turns = .reset :: ts) ∨ t.done = true)

/-- LEN_MISMATCH after a completion: 1 exactly for a DECODE whose result is OK and whose OUT_LEN differs from DECL_LEN;
0 after every accepted START (10_state.md R23). -/
def Obligations.LenMismatchIsDecodeUnderProduction : Prop :=
  ∀ s t : State, s.Inv → step s = .next t →
    (s.busy = true → t.busy = false → t.done = true →
      (t.lenMismatch = true ↔ s.op = opDecode ∧ t.result = .ok ∧ t.outLen ≠ t.declLen)) ∧
    (s.busy = false → t.busy = true → t.lenMismatch = false)

/-- Which result codes each command can end with (60_exceptions.md R101, the column of commands). -/
def Obligations.ResultCodesOfEachCommand : Prop :=
  ∀ s t : State, s.Inv → step s = .next t → s.busy = true → t.busy = false → t.done = true →
    (s.op = opEncode → t.result ∈ [Result.ok, .unrepresentable, .dstOverflow]) ∧
    (s.op = opDecode →
      t.result ∈ [Result.ok, .badContainer, .truncToken, .truncLiteral, .badDistance, .outOverrun]) ∧
    (s.op = opEstComp → t.result ∈ [Result.ok, .unrepresentable]) ∧
    (s.op = opEstDecomp → t.result ∈ [Result.ok, .badContainer])

/-- The interrupt output: DONE and IRQ_EN at every moment; it rises by a completion with IRQ_EN = 1, or by IRQ_EN being
set while DONE = 1, and falls when DONE is cleared or IRQ_EN is cleared (10_state.md R33, 60_exceptions.md R108). -/
def Obligations.InterruptFollowsDoneAndEnable : Prop :=
  ∀ s t : State, step s = .next t →
    (s.irq = true ↔ s.done = true ∧ s.irqEn = true) ∧
    (s.irq = false → t.irq = true →
      (s.busy = true ∧ t.busy = false ∧ s.irqEn = true) ∨
      (s.done = true ∧ s.irqEn = false ∧ ∃ w ts, s.turns = .host (.writeReg 0x00 32 w) :: ts ∧ w.getLsbD 2 = true)) ∧
    (s.busy = true → t.busy = false → s.irqEn = true → (∃ ts, s.turns = .reset :: ts) ∨ t.irq = true)

/-- The core never writes SRC (20_memory.md R44): SRC changes only by a host write to SRC in IDLE. That a host write to DST
in IDLE leaves SRC as it was, whatever PORT_MAP is, is the model's choice (log 3, DESIGN CHOICE): no rule says it of ports
that share bytes. MAGIC and PORT_MAP never change: they are parameters, held in the state (log 1). -/
def Obligations.OnlyTheHostWritesSrc : Prop :=
  ∀ s t : State, step s = .next t →
    t.params = s.params ∧
    (t.src = s.src ∨ (s.busy = false ∧ ∃ a v ts, s.turns = .host (.writeSrc a v) :: ts))

/-- Every step of the core in a running command: no DST byte at or above DST_CAP changes (10_state.md R27); ENCODE and
DECODE change none below what they had written, none at or above what they have written after the step (OUT_LEN once the
command is complete), so each byte is written once, in rising order (20_memory.md R45); a DECODE none at or above its
bound (42_decoder.md R88); an estimator none. -/
def Obligations.CommandsWriteDstOnceBelowCapacity : Prop :=
  ∀ (s t : State) (ts : List Turn), s.Inv → s.busy = true → s.CoreMoves ts → step s = .next t →
    let after := if t.busy then t.written else t.outLen.toNat
    (∀ a, s.dstCap.toNat ≤ a → t.dst.read a = s.dst.read a) ∧
    (s.op = opEncode ∨ s.op = opDecode →
      s.written ≤ after ∧ after ≤ s.dstCap.toNat ∧ ∀ a, a < s.written ∨ after ≤ a → t.dst.read a = s.dst.read a) ∧
    (∀ d, s.phase = .busy (.decoding d) → ∀ a, d.bound ≤ a → t.dst.read a = s.dst.read a) ∧
    (s.op = opEstComp ∨ s.op = opEstDecomp → t.dst = s.dst)

/-- Every command completes after finitely many steps of the core (40_commands.md R70). -/
def Obligations.EveryCommandCompletes : Prop :=
  ∀ s : State, s.Inv → s.busy = true → ∃ u, s.RunsTo u ∧ u.busy = false ∧ u.done = true

/-- No host access disturbs a running command: in BUSY an allowed access leaves everything but the host's own side as it
was, and what the core's next internal step leaves does not depend on that side (10_state.md R31,
40_commands.md R71). -/
def Obligations.HostAccessesDoNotDisturbACommand : Prop :=
  (∀ (s t : State) (a : HostAccess) (ts : List Turn), s.busy = true → s.turns = .host a :: ts → step s = .next t →
    t.coreView = s.coreView ∧ t.turns = ts) ∧
  (∀ s s' t : State, s.busy = true → s.coreView = s'.coreView → coreTurn s = .next t →
    ∃ t', coreTurn s' = .next t' ∧ t'.coreView = t.coreView)

/-- The command function is the whole of a command's effect (40_commands.md R66): a START written to CTRL leads, by the
core alone, to exactly the outputs of `Command`, for all four commands, and to nothing else. -/
def Obligations.StartedCommandLeavesItsFunction : Prop :=
  ∀ (s : State) (w : Reg) (ts : List Turn), s.phase = .idle → s.turns = .host (.writeReg 0x00 32 w) :: ts →
    w.getLsbD 8 = true → s.portsMeet = false →
    ∃ t, step s = .next t ∧
      t.RunsTo (s.commandDone (w.extractLsb' 0 2) (w.getLsbD 2) (s.commandOutputs (w.extractLsb' 0 2)))

/-- How far a command's outputs reach: ENCODE and DECODE write OUT_LEN bytes from offset 0 up, at most DST_CAP, the
estimators none (20_memory.md R45); every value stored into a register is below 2^32 (00_scope.md R9), so that storing it
loses nothing. -/
def Obligations.CommandOutputsFitTheirRegisters : Prop :=
  ∀ (s : State) (op : BitVec 2),
    let o := s.commandOutputs op
    (op = 0 ∨ op = 1 → o.written.length = o.outLen ∧ o.outLen ≤ s.dstCap.toNat) ∧ (op = 2 ∨ op = 3 → o.written = []) ∧
    o.outLen < 2 ^ 32 ∧ o.declLen ≤ 65535 ∧ o.rdPos ≤ s.srcLen.toNat

/-- IDLE is the core's only rest state: with no turn of another agent a step changes nothing (60_exceptions.md R115,
70_reset_and_hazards.md R116). -/
def Obligations.IdleCoreChangesNothing : Prop :=
  ∀ s : State, s.phase = .idle → s.turns = [] → step s = .next s

/-- One pass of the encoder, for every position (41_encoder.md R73, R77, R78, R79): accepted exactly when the best match
has at least 3 bytes, with what it emits and where `pos` and `run_start` go; the bytes go to DST from `wr` up, and a pass
that does not fit ends with DST_OVERFLOW (R83). At `pos = L` the command completes with OK. What `BestMatch` is:
`BestMatchIsLongestThenNearest`. -/
def Obligations.EncoderPassFollowsTheBestMatch : Prop :=
  ∀ (s : State) (e : EncRegs) (ts : List Turn), s.phase = .busy (.encoding e) → s.CoreMoves ts → s.Inv →
    let best := bestMatch s.src.read e.len e.pos
    let run := fun (n : Nat) => Item.raw (readRange s.src.read e.runStart n)
    let goesOn := fun (pos runStart wr : Nat) => Phase.busy (.encoding
      { len := e.len, pos := pos, runStart := runStart, bestLen := best.1, bestJump := best.2, wr := wr })
    let emits := fun (items : List Item) (pos : Nat) =>
      let bytes := items.flatMap Item.bytes
      (e.wr + bytes.length ≤ s.dstCap.toNat → ∃ t, step s = .next t ∧
        t = { s with turns := ts, dst := t.dst, phase := goesOn pos pos (e.wr + bytes.length) } ∧
        (∀ (i : Nat) (h : i < bytes.length), t.dst.read (e.wr + i) = bytes[i]) ∧
        (∀ a, a < e.wr ∨ e.wr + bytes.length ≤ a → t.dst.read a = s.dst.read a)) ∧
      (s.dstCap.toNat < e.wr + bytes.length → ∃ t, step s = .next t ∧
        t = { s with
          turns := ts, dst := t.dst, phase := .idle, done := true, result := .dstOverflow, lenMismatch := false,
          outLen := s.dstCap, declLen := s.srcLen, rdPos := 0 } ∧
        (∀ i, e.wr + i < s.dstCap.toNat → bytes[i]? = some (t.dst.read (e.wr + i))) ∧
        (∀ a, a < e.wr ∨ s.dstCap.toNat ≤ a → t.dst.read a = s.dst.read a))
    let flushes := e.pos + 1 - e.runStart = 2047 ∨ e.pos + 1 = e.len
    (e.pos < e.len → 3 ≤ best.1 →
      emits ((if e.runStart < e.pos then [run (e.pos - e.runStart)] else []) ++ [.back best.1 best.2]) (e.pos + best.1)) ∧
    (e.pos < e.len → best.1 < 3 → flushes → emits [run (e.pos + 1 - e.runStart)] (e.pos + 1)) ∧
    (e.pos < e.len → best.1 < 3 → ¬ flushes →
      step s = .next { s with turns := ts, phase := goesOn (e.pos + 1) e.runStart e.wr }) ∧
    (e.pos = e.len → step s = .next { s with
      turns := ts, phase := .idle, done := true, result := .ok, lenMismatch := false, outLen := BitVec.ofNat 32 e.wr,
      declLen := s.srcLen, rdPos := 0 })
end

