-- ==== Sys2Proof/Laws/Encoding.lean ====
section
/-! SUPPORT. The fields of tokens and CTRL words as numbers, and what packing and unpacking do to one another. -/

namespace Sys2Proof

theorem rd16_toNat (b0 b1 : Byte) : (rd16 b0 b1).toNat = b0.toNat + 256 * b1.toNat := by
  have h0 := b0.isLt
  have h1 := b1.isLt
  unfold rd16
  rw [BitVec.toNat_or, BitVec.toNat_shiftLeft, BitVec.toNat_setWidth, BitVec.toNat_setWidth, Nat.or_comm,
    Nat.mod_eq_of_lt (by omega : b0.toNat < 2 ^ 16), Nat.mod_eq_of_lt (by omega : b1.toNat < 2 ^ 16),
    Nat.shiftLeft_eq, Nat.mod_eq_of_lt (by omega), ← Nat.shiftLeft_eq,
    ← Nat.shiftLeft_add_eq_or_of_lt (by omega : b0.toNat < 2 ^ 8), Nat.shiftLeft_eq]
  omega

theorem tokenCount_toNat (t : Half) : (tokenCount t).toNat = t.toNat % 32 := by
  simp [tokenCount]

theorem tokenJump_toNat (t : Half) : (tokenJump t).toNat = t.toNat / 32 := by
  have := t.isLt
  simp only [tokenJump, BitVec.extractLsb'_toNat, Nat.shiftRight_eq_div_pow]
  omega

theorem tokenWord_toNat (count : BitVec 5) (jump : BitVec 11) :
    (tokenWord count jump).toNat = jump.toNat * 32 + count.toNat := by
  have h0 := count.isLt
  have h1 := jump.isLt
  unfold tokenWord
  rw [BitVec.toNat_or, BitVec.toNat_shiftLeft, BitVec.toNat_setWidth, BitVec.toNat_setWidth,
    Nat.mod_eq_of_lt (by omega : jump.toNat < 2 ^ 16), Nat.mod_eq_of_lt (by omega : count.toNat < 2 ^ 16),
    Nat.shiftLeft_eq, Nat.mod_eq_of_lt (by omega), ← Nat.shiftLeft_eq,
    ← Nat.shiftLeft_add_eq_or_of_lt (by omega : count.toNat < 2 ^ 5), Nat.shiftLeft_eq]

@[simp] theorem tokenCount_tokenWord (count : BitVec 5) (jump : BitVec 11) : tokenCount (tokenWord count jump) = count := by
  apply BitVec.eq_of_toNat_eq
  have := count.isLt
  rw [tokenCount_toNat, tokenWord_toNat]
  omega

@[simp] theorem tokenJump_tokenWord (count : BitVec 5) (jump : BitVec 11) : tokenJump (tokenWord count jump) = jump := by
  apply BitVec.eq_of_toNat_eq
  have := count.isLt
  rw [tokenJump_toNat, tokenWord_toNat]
  omega

@[simp] theorem tokenWord_of_fields (t : Half) : tokenWord (tokenCount t) (tokenJump t) = t := by
  apply BitVec.eq_of_toNat_eq
  rw [tokenWord_toNat, tokenCount_toNat, tokenJump_toNat]
  omega

theorem le16_toNat (v : Half) : (le16 v).map BitVec.toNat = [v.toNat % 256, v.toNat / 256] := by
  have := v.isLt
  simp only [le16, List.map_cons, List.map_nil, BitVec.extractLsb'_toNat, Nat.shiftRight_eq_div_pow]
  rw [show v.toNat / 2 ^ 8 % 2 ^ 8 = v.toNat / 256 by omega, Nat.pow_zero, Nat.div_one]

@[simp] theorem le16_length (v : Half) : (le16 v).length = 2 := rfl

@[simp] theorem tokenBytes_length (count : BitVec 5) (jump : BitVec 11) : (tokenBytes count jump).length = 2 := rfl

/-- The two bytes of a value read back as the value (00_scope.md R10). -/
theorem rd16_le16 (v : Half) : rd16 (v.extractLsb' 0 8) (v.extractLsb' 8 8) = v := by
  apply BitVec.eq_of_toNat_eq
  have := v.isLt
  rw [rd16_toNat, BitVec.extractLsb'_toNat, BitVec.extractLsb'_toNat, Nat.shiftRight_eq_div_pow, Nat.shiftRight_eq_div_pow]
  omega

theorem decodeToken_literal (jump : BitVec 11) : decodeToken (tokenWord 0 jump) = .lit jump := by
  simp [decodeToken]

theorem decodeToken_backRef (count : BitVec 5) (jump : BitVec 11) (h : count ≠ 0) :
    decodeToken (tokenWord count jump) = .bref count jump := by
  rw [decodeToken, tokenCount_tokenWord, if_neg h, tokenJump_tokenWord]

/-- A token is a LIT or a BREF. -/
theorem decodeToken_cases (t : Half) :
    (tokenCount t = 0 ∧ decodeToken t = .lit (tokenJump t)) ∨
    (tokenCount t ≠ 0 ∧ decodeToken t = .bref (tokenCount t) (tokenJump t)) := by
  unfold decodeToken
  split
  · exact .inl ⟨by assumption, rfl⟩
  · exact .inr ⟨by assumption, rfl⟩

/-- A CTRL word decodes exactly when START is 1. -/
theorem decodeCtrl_noStart (w : Reg) (h : ctrlStart w = false) : decodeCtrl w = .error .noStart := by
  simp [decodeCtrl, h]

theorem ctrlOp_toNat (w : Reg) : (ctrlOp w).toNat = w.toNat % 4 := by
  simp [ctrlOp]

end Sys2Proof
end

