-- ==== Sys2Proof/Laws/Memory.lean ====
section
/-! SUPPORT. Reads after writes, and the canonical form, for every memory operation. -/

namespace Sys2Proof.Machine

/-! ## Reading -/

@[simp] theorem Memory.read_nil (a : Nat) : Memory.read [] a = Memory.unlisted := rfl

@[simp] theorem Memory.read_cons (c : Host.Cell) (m : Memory) (a : Nat) :
    Memory.read (c :: m) a = if c.1 = a then c.2 else Memory.read m a := rfl

theorem Memory.read_erase (m : Memory) (a b : Nat) :
    (m.erase a).read b = if b = a then Memory.unlisted else m.read b := by
  induction m with
  | nil => simp [Memory.erase]
  | cons c m ih =>
    unfold Memory.erase at ih ⊢
    by_cases h : c.1 = a <;> by_cases h' : b = a <;> simp_all
    · intro h''; omega

theorem Memory.read_insertCell (m : Memory) (a b : Nat) (v : Byte) (h : m.read a = Memory.unlisted)
    (hm : ∀ c ∈ m, c.1 ≠ a) :
    (Memory.insertCell a v m).read b = if b = a then v else m.read b := by
  induction m with
  | nil =>
    by_cases h' : b = a
    · simp [Memory.insertCell, h']
    · simp [Memory.insertCell, h', Ne.symm h']
  | cons c m ih =>
    have hc : c.1 ≠ a := hm c (by simp)
    have hm' : ∀ c ∈ m, c.1 ≠ a := fun d hd => hm d (by simp [hd])
    simp only [Memory.read_cons, hc, if_false] at h
    unfold Memory.insertCell
    by_cases hlt : a < c.1
    · by_cases h' : b = a
      · simp [hlt, h']
      · simp [hlt, h', Ne.symm h']
    · simp only [hlt, if_false, Memory.read_cons, ih h hm']
      by_cases h' : b = a
      · simp [h', hc]
      · simp [h']

theorem Memory.erase_ne (m : Memory) (a : Nat) : ∀ c ∈ m.erase a, c.1 ≠ a := by
  intro c hc
  simpa using (List.mem_filter.mp hc).2

/-- The law of a byte write: the byte written reads back, every other byte is as before. -/
@[simp] theorem Memory.read_write (m : Memory) (a b : Nat) (v : Byte) :
    (m.write a v).read b = if b = a then v else m.read b := by
  unfold Memory.write
  by_cases hv : v = Memory.unlisted
  · simp [hv, Memory.read_erase]
  · rw [if_neg hv, Memory.read_insertCell _ _ _ _ (by simp [Memory.read_erase]) (m.erase_ne a), Memory.read_erase]
    split <;> rfl

/-! ## Lists of bytes -/

@[simp] theorem readRange_length (src : Nat → Byte) (a n : Nat) : (readRange src a n).length = n := by
  induction n generalizing a with
  | zero => rfl
  | succ n ih => simp [readRange, ih]

theorem readRange_getElem? (src : Nat → Byte) (a n i : Nat) :
    (readRange src a n)[i]? = if i < n then some (src (a + i)) else none := by
  induction n generalizing a i with
  | zero => simp [readRange]
  | succ n ih =>
    cases i with
    | zero => simp [readRange]
    | succ i => simp [readRange, ih, Nat.add_right_comm, Nat.add_assoc]

theorem readRange_add (src : Nat → Byte) (a m n : Nat) :
    readRange src a (m + n) = readRange src a m ++ readRange src (a + m) n := by
  induction m generalizing a with
  | zero => simp [readRange]
  | succ m ih =>
    rw [Nat.add_right_comm, readRange, readRange, ih, List.cons_append, show a + 1 + m = a + (m + 1) by omega]

theorem readRange_congr (src src' : Nat → Byte) (a n : Nat) (h : ∀ i, a ≤ i → i < a + n → src i = src' i) :
    readRange src a n = readRange src' a n := by
  apply List.ext_getElem?
  intro i
  simp only [readRange_getElem?]
  split
  · rw [h (a + i) (by omega) (by omega)]
  · rfl

@[simp] theorem Memory.writeList_nil (m : Memory) (a : Nat) : m.writeList a [] = m := rfl

theorem Memory.writeList_append (m : Memory) (a : Nat) (bs cs : List Byte) :
    m.writeList a (bs ++ cs) = (m.writeList a bs).writeList (a + bs.length) cs := by
  induction bs generalizing m a with
  | nil => rfl
  | cons b bs ih => simp [Memory.writeList, ih, Nat.add_assoc, Nat.add_comm 1]

/-- The law of consecutive writes. -/
theorem Memory.read_writeList (m : Memory) (a b : Nat) (bs : List Byte) :
    (m.writeList a bs).read b = if a ≤ b then bs[b - a]?.getD (m.read b) else m.read b := by
  induction bs generalizing m a with
  | nil => simp
  | cons v bs ih =>
    rw [Memory.writeList, ih, Memory.read_write]
    by_cases h : b = a
    · subst h; simp
    · by_cases h' : a ≤ b
      · have e : b - a = (b - (a + 1)) + 1 := by omega
        simp [h, h', show a + 1 ≤ b by omega, e]
      · simp [h, h', show ¬ a + 1 ≤ b by omega]

theorem Memory.read_writeList_below (m : Memory) (a b : Nat) (bs : List Byte) (h : b < a) :
    (m.writeList a bs).read b = m.read b := by
  rw [Memory.read_writeList, if_neg (by omega)]

theorem Memory.read_writeList_above (m : Memory) (a b : Nat) (bs : List Byte) (h : a + bs.length ≤ b) :
    (m.writeList a bs).read b = m.read b := by
  rw [Memory.read_writeList, if_pos (by omega), List.getElem?_eq_none (by omega), Option.getD_none]

/-- The copy of a back-reference leaves every byte outside its destination as before. -/
theorem Memory.read_copyBack_outside (m : Memory) (w jump n b : Nat) (h : b < w ∨ w + n ≤ b) :
    (m.copyBack w jump n).read b = m.read b := by
  induction n generalizing m w with
  | zero => rfl
  | succ n ih => rw [Memory.copyBack, ih _ _ (by omega), Memory.read_write, if_neg (by omega)]

/-- Each byte of the copy equals the byte `jump` back from it AFTER the copy, which is the byte the token read
(42_decoder.md R92, R94). -/
theorem Memory.read_copyBack_back (m : Memory) (w jump n i : Nat) (hj : 1 ≤ jump) (hw : jump ≤ w) (h : i < n) :
    (m.copyBack w jump n).read (w + i) = (m.copyBack w jump n).read (w + i - jump) := by
  induction n generalizing m w i with
  | zero => omega
  | succ n ih =>
    rw [Memory.copyBack]
    cases i with
    | zero =>
      rw [Memory.read_copyBack_outside _ _ _ _ _ (by omega), Memory.read_copyBack_outside _ _ _ _ _ (by omega),
        Memory.read_write, if_pos (by omega), Memory.read_write, if_neg (by omega)]
      rfl
    | succ i =>
      have := ih (m.write w (m.read (w - jump))) (w + 1) i (by omega) (by omega)
      rwa [Nat.add_right_comm, Nat.add_assoc] at this

theorem Memory.read_drawRange (m : Memory) (a k n b : Nat) :
    (m.drawRange a k n).read b = if a ≤ b ∧ b < a + n then Config.freeByte (k + (b - a)) else m.read b := by
  induction n generalizing m a k with
  | zero => rw [Memory.drawRange, if_neg (by omega)]
  | succ n ih =>
    rw [Memory.drawRange, ih, Memory.read_write]
    by_cases h : b = a
    · subst h
      simp
    · by_cases h' : a + 1 ≤ b ∧ b < a + 1 + n
      · rw [if_pos h', if_pos (by omega), show k + 1 + (b - (a + 1)) = k + (b - a) by omega]
      · rw [if_neg h', if_neg h, if_neg (by omega)]

/-! ## The canonical form -/

theorem Memory.erase_sublist (m : Memory) (a : Nat) : (m.erase a).Sublist m := List.filter_sublist

theorem Memory.erase_wf (m : Memory) (a : Nat) (h : m.wf) : (m.erase a).wf :=
  ⟨h.1.sublist (m.erase_sublist a), fun c hc => h.2 c ((m.erase_sublist a).subset hc)⟩

theorem Memory.mem_insertCell (m : Memory) (a : Nat) (v : Byte) (c : Host.Cell) :
    c ∈ Memory.insertCell a v m ↔ c = (a, v) ∨ c ∈ m := by
  induction m with
  | nil => simp [Memory.insertCell]
  | cons d m ih =>
    unfold Memory.insertCell
    split
    · simp
    · simp only [List.mem_cons, ih]
      exact or_left_comm

theorem Memory.insertCell_wf (m : Memory) (a : Nat) (v : Byte) (h : m.wf) (hm : ∀ c ∈ m, c.1 ≠ a)
    (hv : v ≠ Memory.unlisted) : (Memory.insertCell a v m).wf := by
  constructor
  · have hp := h.1
    clear h
    induction m with
    | nil => simp [Memory.insertCell]
    | cons d m ih =>
      have hd : d.1 ≠ a := hm d (by simp)
      have hp' := List.pairwise_cons.mp hp
      unfold Memory.insertCell
      split
      · rename_i hlt
        refine List.pairwise_cons.mpr ⟨?_, hp⟩
        intro c hc
        rcases List.mem_cons.mp hc with rfl | hc
        · exact hlt
        · exact Nat.lt_trans hlt (hp'.1 c hc)
      · refine List.pairwise_cons.mpr ⟨?_, ih (fun c hc => hm c (by simp [hc])) hp'.2⟩
        intro c hc
        rcases (Memory.mem_insertCell m a v c).mp hc with rfl | hc
        · show d.1 < a
          omega
        · exact hp'.1 c hc
  · intro c hc
    rcases (Memory.mem_insertCell m a v c).mp hc with rfl | hc
    · exact hv
    · exact h.2 c hc

theorem Memory.write_wf (m : Memory) (a : Nat) (v : Byte) (h : m.wf) : (m.write a v).wf := by
  unfold Memory.write
  split
  · exact m.erase_wf a h
  · exact Memory.insertCell_wf _ _ _ (m.erase_wf a h) (m.erase_ne a) (by assumption)

theorem Memory.write_inPort (m : Memory) (a : Nat) (v : Byte) (h : m.inPort) (ha : a < 2 ^ Config.portAw) :
    (m.write a v).inPort := by
  intro c hc
  unfold Memory.write at hc
  split at hc
  · exact h c ((m.erase_sublist a).subset hc)
  · rcases (Memory.mem_insertCell _ a v c).mp hc with rfl | hc
    · exact ha
    · exact h c ((m.erase_sublist a).subset hc)

theorem Memory.writeList_wf (m : Memory) (a : Nat) (bs : List Byte) (h : m.wf) : (m.writeList a bs).wf := by
  induction bs generalizing m a with
  | nil => exact h
  | cons b bs ih => exact ih _ _ (m.write_wf a b h)

theorem Memory.writeList_inPort (m : Memory) (a : Nat) (bs : List Byte) (h : m.inPort)
    (ha : a + bs.length ≤ 2 ^ Config.portAw) : (m.writeList a bs).inPort := by
  induction bs generalizing m a with
  | nil => exact h
  | cons b bs ih =>
    rw [List.length_cons] at ha
    exact ih _ _ (m.write_inPort a b h (by omega)) (by omega)

theorem Memory.copyBack_wf (m : Memory) (w jump n : Nat) (h : m.wf) : (m.copyBack w jump n).wf := by
  induction n generalizing m w with
  | zero => exact h
  | succ n ih => exact ih _ _ (m.write_wf _ _ h)

theorem Memory.copyBack_inPort (m : Memory) (w jump n : Nat) (h : m.inPort) (hw : w + n ≤ 2 ^ Config.portAw) :
    (m.copyBack w jump n).inPort := by
  induction n generalizing m w with
  | zero => exact h
  | succ n ih => exact ih _ _ (m.write_inPort _ _ h (by omega)) (by omega)

theorem Memory.drawRange_wf (m : Memory) (a k n : Nat) (h : m.wf) : (m.drawRange a k n).wf := by
  induction n generalizing m a k with
  | zero => exact h
  | succ n ih => exact ih _ _ _ (m.write_wf _ _ h)

theorem Memory.drawRange_inPort (m : Memory) (a k n : Nat) (h : m.inPort) (ha : a + n ≤ 2 ^ Config.portAw) :
    (m.drawRange a k n).inPort := by
  induction n generalizing m a k with
  | zero => exact h
  | succ n ih => exact ih _ _ _ (m.write_inPort _ _ h (by omega)) (by omega)

/-- A canonical memory is determined by what it reads as. -/
theorem Memory.eq_of_read (m n : Memory) (hm : m.wf) (hn : n.wf) (h : ∀ a, m.read a = n.read a) : m = n := by
  have low : ∀ (m : Memory) (a : Nat), (∀ c ∈ m, a < c.1) → m.read a = Memory.unlisted := by
    intro m a hlt
    induction m with
    | nil => rfl
    | cons c m ih =>
      have := hlt c (by simp)
      rw [Memory.read_cons, if_neg (by omega), ih (fun d hd => hlt d (by simp [hd]))]
  have tail : ∀ (c : Host.Cell) (m : Memory), Memory.wf (c :: m) → Memory.wf m := fun c m hw =>
    ⟨(List.pairwise_cons.mp hw.1).2, fun d hd => hw.2 d (by simp [hd])⟩
  have above : ∀ (c : Host.Cell) (m : Memory), Memory.wf (c :: m) → ∀ d ∈ m, c.1 < d.1 := fun c m hw =>
    (List.pairwise_cons.mp hw.1).1
  have first : ∀ (c d : Host.Cell) (m n : Memory), Memory.wf (c :: m) → Memory.wf (d :: n) →
      (∀ a, Memory.read (c :: m) a = Memory.read (d :: n) a) → ¬ c.1 < d.1 := by
    intro c d m n hc hd he hlt
    have e := he c.1
    rw [Memory.read_cons, if_pos rfl, Memory.read_cons, if_neg (by omega),
      low n c.1 (fun x hx => Nat.lt_trans hlt (above d n hd x hx))] at e
    exact hc.2 c (by simp) e
  induction m generalizing n with
  | nil =>
    cases n with
    | nil => rfl
    | cons d n =>
      have e := h d.1
      rw [Memory.read_nil, Memory.read_cons, if_pos rfl] at e
      exact absurd e.symm (hn.2 d (by simp))
  | cons c m ih =>
    cases n with
    | nil =>
      have e := h c.1
      rw [Memory.read_nil, Memory.read_cons, if_pos rfl] at e
      exact absurd e (hm.2 c (by simp))
    | cons d n =>
      have hk : c.1 = d.1 := by
        have h1 := first c d m n hm hn h
        have h2 := first d c n m hn hm (fun a => (h a).symm)
        omega
      have hv : c.2 = d.2 := by
        have e := h c.1
        rwa [Memory.read_cons, if_pos rfl, Memory.read_cons, if_pos hk.symm] at e
      have hcd : c = d := Prod.ext hk hv
      subst hcd
      congr 1
      refine ih n (tail c m hm) (tail c n hn) fun a => ?_
      by_cases ha : c.1 = a
      · subst ha
        rw [low m c.1 (above c m hm), low n c.1 (above c n hn)]
      · have e := h a
        rwa [Memory.read_cons, if_neg ha, Memory.read_cons, if_neg ha] at e

end Sys2Proof.Machine
end

