-- ==== Sys2Proof/Laws/Encoder.lean ====
section
/-! SUPPORT. What the match finder, one pass of the encoder's loop, the emission of bytes and the whole loop do. -/

namespace Sys2Proof.Machine

/-! ## The match finder -/

/-- The loop of MatchLen: it stays within cap and input, every byte it passed is equal, and it stops at the cap, the end
of the input or a difference (41_encoder.md R75). -/
theorem matchLenFrom_spec (inp : Nat → Byte) (len pos j fuel k : Nat) (hk : pos + k ≤ len) :
    let r := matchLenFrom inp len pos j fuel k
    k ≤ r ∧ r ≤ k + fuel ∧ pos + r ≤ len ∧ (∀ i, k ≤ i → i < r → inp (pos - j + i) = inp (pos + i)) ∧
      (r = k + fuel ∨ pos + r = len ∨ inp (pos - j + r) ≠ inp (pos + r)) := by
  induction fuel generalizing k with
  | zero => simp [matchLenFrom, hk]; omega
  | succ fuel ih =>
    simp only [matchLenFrom]
    split
    · rename_i h
      obtain ⟨h1, h2, h3, h4, h5⟩ := ih (k + 1) (by omega)
      refine ⟨by omega, by omega, h3, fun i hi hr => ?_, ?_⟩
      · rcases Nat.eq_or_lt_of_le hi with rfl | hi
        · exact h.2
        · exact h4 i hi hr
      · rcases h5 with h5 | h5
        · exact .inl (by omega)
        · exact .inr h5
    · rename_i h
      refine ⟨Nat.le_refl _, by omega, hk, by omega, ?_⟩
      by_cases hl : pos + k < len
      · exact .inr (.inr fun he => h ⟨hl, he⟩)
      · exact .inr (.inl (by omega))

theorem matchLen_bounds (inp : Nat → Byte) (len pos j : Nat) (h : pos ≤ len) :
    matchLen inp len pos j ≤ Config.maxMatch ∧ pos + matchLen inp len pos j ≤ len := by
  have := matchLenFrom_spec inp len pos j Config.maxMatch 0 h
  simp only [Nat.zero_add] at this
  exact ⟨this.2.1, this.2.2.1⟩

theorem matchLen_eq_bytes (inp : Nat → Byte) (len pos j i : Nat) (h : pos ≤ len) (hi : i < matchLen inp len pos j) :
    inp (pos - j + i) = inp (pos + i) :=
  (matchLenFrom_spec inp len pos j Config.maxMatch 0 h).2.2.2.1 i (Nat.zero_le _) hi

/-- The loop of BestMatch over the distances `j + 1` to `j + n`: the result is at least every candidate, and it is
either the match the loop began with or the first of the longest candidates (41_encoder.md R76). -/
theorem bestMatchFrom_spec (inp : Nat → Byte) (len pos n j : Nat) (best : Match) :
    let r := bestMatchFrom inp len pos n j best
    best.1 ≤ r.1 ∧ (∀ i, j < i → i ≤ j + n → matchLen inp len pos i ≤ r.1) ∧
      (r = best ∨ (best.1 < r.1 ∧ j < r.2 ∧ r.2 ≤ j + n ∧ matchLen inp len pos r.2 = r.1 ∧
        ∀ i, j < i → i < r.2 → matchLen inp len pos i < r.1)) := by
  induction n generalizing j best with
  | zero => exact ⟨Nat.le_refl _, by omega, .inl rfl⟩
  | succ n ih =>
    simp only [bestMatchFrom]
    split
    · rename_i h
      obtain ⟨h1, h2, h3⟩ := ih (j + 1) (matchLen inp len pos (j + 1), j + 1)
      refine ⟨by simp only at h1; omega, fun i hi hn => ?_, .inr ?_⟩
      · rcases Nat.eq_or_lt_of_le (show j + 1 ≤ i from hi) with rfl | hi
        · exact h1
        · exact h2 i hi (by omega)
      · rcases h3 with h3 | ⟨h3, h4, h5, h6, h7⟩
        · rw [h3]
          refine ⟨h, Nat.lt_succ_self _, by simp only; omega, rfl, fun i hi hn => ?_⟩
          simp only at hn
          omega
        · simp only at h3
          refine ⟨by omega, by omega, by omega, h6, fun i hi hn => ?_⟩
          rcases Nat.eq_or_lt_of_le (show j + 1 ≤ i from hi) with rfl | hi
          · exact h3
          · exact h7 i hi hn
    · rename_i h
      obtain ⟨h1, h2, h3⟩ := ih (j + 1) best
      refine ⟨h1, fun i hi hn => ?_, ?_⟩
      · rcases Nat.eq_or_lt_of_le (show j + 1 ≤ i from hi) with rfl | hi
        · omega
        · exact h2 i hi (by omega)
      · rcases h3 with h3 | ⟨h3, h4, h5, h6, h7⟩
        · exact .inl h3
        · refine .inr ⟨h3, by omega, by omega, h6, fun i hi hn => ?_⟩
          rcases Nat.eq_or_lt_of_le (show j + 1 ≤ i from hi) with rfl | hi
          · omega
          · exact h7 i hi hn

/-- A best match is none, or a candidate with its length; in either case within the ranges of 10_state.md R36. -/
theorem bestMatch_cases (inp : Nat → Byte) (len pos : Nat) (h : pos ≤ len) :
    let b := bestMatch inp len pos
    b = (0, 0) ∨ (1 ≤ b.2 ∧ b.2 ≤ Config.window ∧ b.2 ≤ pos ∧ b.1 = matchLen inp len pos b.2 ∧
      b.1 ≤ Config.maxMatch ∧ pos + b.1 ≤ len) := by
  have hs := bestMatchFrom_spec inp len pos (min Config.window pos) 0 (0, 0)
  simp only [Nat.zero_add] at hs
  obtain ⟨-, -, h0 | ⟨h1, h2, h3, h4, h5⟩⟩ := hs
  · exact .inl h0
  · have hb := matchLen_bounds inp len pos (bestMatch inp len pos).2 h
    have h3' := Nat.le_min.mp h3
    refine .inr ⟨h2, h3'.1, h3'.2, h4.symm, ?_, ?_⟩
    · rw [← show matchLen inp len pos (bestMatch inp len pos).2 = (bestMatch inp len pos).1 from h4]
      exact hb.1
    · rw [← show matchLen inp len pos (bestMatch inp len pos).2 = (bestMatch inp len pos).1 from h4]
      exact hb.2

theorem bestMatch_zero (inp : Nat → Byte) (len : Nat) : bestMatch inp len 0 = (0, 0) := rfl

/-! ## One pass of the loop -/

/-- What one pass can do (41_encoder.md R77, R78): accept a candidate of length 3 to 31, or reject the position with or
without a flush. -/
theorem scanStep_cases (inp : Nat → Byte) (len pos runStart : Nat) (h : pos ≤ len) :
    let p := scanStep inp len pos runStart
    (∃ count jump, 3 ≤ count ∧ count ≤ 31 ∧ 1 ≤ jump ∧ jump ≤ 2046 ∧ jump ≤ pos ∧ pos + count ≤ len ∧
      (∀ i, i < count → inp (pos - jump + i) = inp (pos + i)) ∧
      p = { bytes := (if runStart < pos then literalItem inp runStart (pos - runStart) else []) ++ backRefItem (count, jump)
            pos := pos + count, runStart := pos + count, best := (count, jump) }) ∨
    ((pos + 1 - runStart = 2047 ∨ pos + 1 = len) ∧ p.best.1 ≤ 31 ∧ p.best.2 ≤ 2046 ∧
      p = { bytes := literalItem inp runStart (pos + 1 - runStart), pos := pos + 1, runStart := pos + 1, best := p.best }) ∨
    (pos + 1 - runStart ≠ 2047 ∧ pos + 1 ≠ len ∧ p.best.1 ≤ 31 ∧ p.best.2 ≤ 2046 ∧
      p = { bytes := [], pos := pos + 1, runStart := runStart, best := p.best }) := by
  have hb := bestMatch_cases inp len pos h
  simp only [scanStep, scanWith]
  split
  · rename_i hacc
    left
    rcases hb with h0 | ⟨h1, h2, h3, h4, h5, h6⟩
    · rw [h0] at hacc
      exact absurd hacc (by decide)
    · refine ⟨(bestMatch inp len pos).1, (bestMatch inp len pos).2, hacc, h5, h1, h2, h3, h6, fun i hi => ?_, rfl⟩
      rw [h4] at hi
      exact matchLen_eq_bytes inp len pos _ i h hi
  · right
    have hr : (bestMatch inp len pos).1 ≤ 31 ∧ (bestMatch inp len pos).2 ≤ 2046 := by
      rcases hb with h0 | ⟨h1, h2, h3, h4, h5, h6⟩
      · rw [h0]; decide
      · exact ⟨h5, h2⟩
    unfold scanReject
    split
    · rename_i hf
      exact .inl ⟨hf, hr.1, hr.2, rfl⟩
    · rename_i hf
      refine .inr ⟨fun hx => hf (.inl hx), fun hx => hf (.inr hx), hr.1, hr.2, rfl⟩

@[simp] theorem literalItem_length (inp : Nat → Byte) (a n : Nat) : (literalItem inp a n).length = 2 + n := by
  simp [literalItem]

@[simp] theorem backRefItem_length (m : Match) : (backRefItem m).length = 2 := rfl

/-- A literal flush is the item of the run's bytes (30_encoding.md R59). -/
theorem literalItem_eq (inp : Nat → Byte) (a n : Nat) : literalItem inp a n = Item.bytes (.raw (readRange inp a n)) := by
  simp [literalItem, Item.bytes]

/-- The cursors after one pass (10_state.md R36). -/
theorem scanStep_ranges (inp : Nat → Byte) (len pos runStart : Nat) (hp : pos < len) (hr : runStart ≤ pos)
    (hl : pos - runStart < Config.maxLit) :
    let p := scanStep inp len pos runStart
    pos < p.pos ∧ p.pos ≤ len ∧ p.runStart ≤ p.pos ∧ p.pos - p.runStart < Config.maxLit ∧
      (p.pos = len → p.runStart = p.pos) ∧ p.best.1 ≤ Config.maxMatch ∧ p.best.2 ≤ Config.window := by
  simp only [Config.maxLit, Config.maxMatch, Config.window] at *
  rcases scanStep_cases inp len pos runStart (Nat.le_of_lt hp) with
    ⟨count, jump, h1, h2, h3, h4, h5, h6, -, h8⟩ | ⟨h1, h2, h3, h4⟩ | ⟨h1, h2, h3, h4, h5⟩
  · rw [h8]
    refine ⟨?_, ?_, ?_, ?_, fun _ => rfl, ?_, ?_⟩ <;> simp only <;> omega
  · rw [h4]
    refine ⟨?_, ?_, ?_, ?_, fun _ => rfl, ?_, ?_⟩ <;> simp only <;> omega
  · rw [h5]
    refine ⟨?_, ?_, ?_, ?_, fun h => absurd h h2, ?_, ?_⟩ <;> simp only <;> omega

/-! ## Emission -/

/-- Emission under the capacity: all the bytes, or as many as fit (41_encoder.md R83). -/
theorem emitBytes_eq (cap : Nat) (bs : List Byte) (m : Memory) (wr : Nat) (h : wr ≤ cap) :
    emitBytes cap bs m wr =
      (m.writeList wr (bs.take (cap - wr)), min (wr + bs.length) cap, decide (cap < wr + bs.length)) := by
  induction bs generalizing m wr with
  | nil => simp [emitBytes, Nat.min_eq_left h, Nat.not_lt.mpr h]
  | cons b bs ih =>
    unfold emitBytes
    split
    · have : cap = wr := by omega
      subst this
      simp
    · rw [ih _ _ (by omega), show cap - wr = (cap - (wr + 1)) + 1 by omega, List.take_succ_cons, Memory.writeList,
        List.length_cons, show wr + 1 + bs.length = wr + (bs.length + 1) by omega]

/-! ## The whole loop -/

theorem encodeItems_done (inp : Nat → Byte) (len fuel pos runStart : Nat) (h : len ≤ pos) :
    encodeItems inp len fuel pos runStart = [] := by
  cases fuel with
  | zero => rfl
  | succ fuel => rw [encodeItems, if_neg (by omega)]

theorem encodeItems_next (inp : Nat → Byte) (len fuel pos runStart : Nat) (h : pos < len) :
    encodeItems inp len (fuel + 1) pos runStart =
      (scanStep inp len pos runStart).bytes ++
        encodeItems inp len fuel (scanStep inp len pos runStart).pos (scanStep inp len pos runStart).runStart := by
  rw [encodeItems, if_pos h]

@[simp] theorem headerBytes_length (magic : Vector Byte 5) (len : Nat) : (headerBytes magic len).length = 7 := by
  simp [headerBytes]

/-- The length of what is still to be emitted, when the bytes from the pending run's start on are not yet emitted
(41_encoder.md R84). -/
theorem encodeItems_length_le (inp : Nat → Byte) (len fuel pos runStart : Nat) (hr : runStart ≤ pos) (hp : pos ≤ len) :
    (encodeItems inp len fuel pos runStart).length ≤
      (len - runStart) + 1 + (len - runStart + 3) / 4 + 2 * ((len - runStart) / 2047) := by
  induction fuel generalizing pos runStart with
  | zero => simp [encodeItems]
  | succ fuel ih =>
    by_cases hlt : pos < len
    · rw [encodeItems_next _ _ _ _ _ hlt, List.length_append]
      rcases scanStep_cases inp len pos runStart hp with
        ⟨count, jump, h1, h2, h3, h4, h5, h6, -, h8⟩ | ⟨h1, h2, h3, h4⟩ | ⟨h1, h2, h3, h4, h5⟩
      · have := ih (pos + count) (pos + count) (Nat.le_refl _) h6
        rw [h8]
        simp only [List.length_append, backRefItem_length]
        split
        · rw [literalItem_length]
          omega
        · rw [List.length_nil]
          omega
      · have := ih (pos + 1) (pos + 1) (Nat.le_refl _) (by omega)
        rw [h4]
        simp only [literalItem_length]
        rcases h1 with h1 | h1
        · omega
        · rw [encodeItems_done inp len fuel (pos + 1) (pos + 1) (by omega), List.length_nil]
          omega
      · have := ih (pos + 1) runStart (by omega) (by omega)
        rw [h5]
        simpa using this
    · rw [encodeItems_done _ _ _ _ _ (by omega)]
      simp

end Sys2Proof.Machine
end

