-- ==== Sys2Proof/Laws/Operands.lean ====
section
/-! SUPPORT. The operands of commands: HeaderOK byte by byte, the declared length, when the two ports meet. -/

namespace Sys2Proof.Machine

/-- A register value as a number and back. -/
@[simp] theorem reg_ofNat_toNat (x : Reg) : BitVec.ofNat 32 x.toNat = x := by
  apply BitVec.eq_of_toNat_eq
  rw [BitVec.toNat_ofNat]
  exact Nat.mod_eq_of_lt x.isLt

/-- HeaderOK, byte by byte (42_decoder.md R87). -/
theorem headerOk_iff (magic : Vector Byte 5) (src : Nat → Byte) (len : Nat) :
    headerOk magic src len = true ↔ 7 ≤ len ∧ ∀ (i : Nat) (h : i < 5), src i = magic[i] := by
  simp only [headerOk, Bool.and_eq_true, decide_eq_true_eq, beq_iff_eq]
  constructor
  · rintro ⟨h1, h2⟩
    refine ⟨h1, fun i hi => ?_⟩
    have := congrArg (fun l => l[i]?) h2
    simp only [readRange_getElem?, if_pos hi, Nat.zero_add] at this
    rw [List.getElem?_eq_getElem (by simpa using hi)] at this
    simpa using this
  · rintro ⟨h1, h2⟩
    refine ⟨h1, List.ext_getElem? fun i => ?_⟩
    rw [readRange_getElem?]
    split
    · rename_i hi
      rw [List.getElem?_eq_getElem (by simpa using hi), Nat.zero_add, h2 i hi]
      simp
    · rename_i hi
      rw [List.getElem?_eq_none (by simpa using hi)]

/-- The declared length is a 16-bit value (30_encoding.md R53). -/
theorem declaredLen_lt (src : Nat → Byte) : declaredLen src < 65536 := (rd16 _ _).isLt

theorem headerOk_congr (magic : Vector Byte 5) (src src' : Nat → Byte) (len : Nat) (h : ∀ i, i < len → src i = src' i) :
    headerOk magic src len = headerOk magic src' len := by
  rw [Bool.eq_iff_iff, headerOk_iff, headerOk_iff]
  constructor
  · rintro ⟨a, b⟩
    exact ⟨a, fun i hi => by rw [← h i (by omega)]; exact b i hi⟩
  · rintro ⟨a, b⟩
    exact ⟨a, fun i hi => by rw [h i (by omega)]; exact b i hi⟩

/-- The two ports meet exactly when some byte one reaches is a byte the other reaches
(70_reset_and_hazards.md R120). -/
theorem portsMeet_iff (pm : Config.PortMap) :
    portsMeet pm = true ↔
      ∃ a b, a < portReach pm.srcSize ∧ b < portReach pm.dstSize ∧ pm.srcBase + a = pm.dstBase + b := by
  simp only [portsMeet, Bool.and_eq_true, bne_iff_ne, decide_eq_true_eq]
  constructor
  · rintro ⟨h1, h2, h3, h4⟩
    by_cases h : pm.srcBase ≤ pm.dstBase
    · exact ⟨pm.dstBase - pm.srcBase, 0, by omega, by omega, by omega⟩
    · exact ⟨0, pm.srcBase - pm.dstBase, by omega, by omega, by omega⟩
  · rintro ⟨a, b, h1, h2, h3⟩
    omega

end Sys2Proof.Machine
end

