-- ==== Sys2Proof/Laws/Decoder.lean ====
section
/-! SUPPORT. The token loop on sequences, item by item, and what it makes of an encoder's items. -/

namespace Sys2Proof.Machine

/-! ## The overlapping copy on sequences -/

@[simp] theorem appendBack_length (jump n : Nat) (out : List Byte) : (appendBack jump n out).length = out.length + n := by
  induction n generalizing out with
  | zero => rfl
  | succ n ih => rw [appendBack, ih, List.length_append, List.length_singleton]; omega

/-- The copy extends what is there. -/
theorem appendBack_prefix (jump n : Nat) (out : List Byte) : ∃ ext, appendBack jump n out = out ++ ext := by
  induction n generalizing out with
  | zero => exact ⟨[], by simp [appendBack]⟩
  | succ n ih =>
    obtain ⟨ext, h⟩ := ih (out ++ [out.getD (out.length - jump) 0])
    exact ⟨out.getD (out.length - jump) 0 :: ext, by rw [appendBack, h, List.append_assoc]; rfl⟩

theorem readRange_getD (src : Nat → Byte) (n i : Nat) (x : Byte) (h : i < n) : (readRange src 0 n).getD i x = src i := by
  rw [List.getD_eq_getElem?_getD, readRange_getElem?, if_pos h, Option.getD_some, Nat.zero_add]

theorem readRange_succ (src : Nat → Byte) (n : Nat) : readRange src 0 (n + 1) = readRange src 0 n ++ [src n] := by
  rw [readRange_add, Nat.zero_add]
  rfl

/-- A back-reference over a match of the input reproduces the input (42_decoder.md R96). -/
theorem appendBack_of_match (inp : Nat → Byte) (pos jump count : Nat) (hj : 1 ≤ jump) (hp : jump ≤ pos)
    (h : ∀ i, i < count → inp (pos - jump + i) = inp (pos + i)) :
    appendBack jump count (readRange inp 0 pos) = readRange inp 0 (pos + count) := by
  induction count generalizing pos with
  | zero => rfl
  | succ count ih =>
    have h0 := h 0 (by omega)
    rw [Nat.add_zero, Nat.add_zero] at h0
    rw [appendBack, readRange_length, readRange_getD _ _ _ _ (by omega), h0, ← readRange_succ,
      ih (pos + 1) (by omega) (fun i hi => ?_), show pos + 1 + count = pos + (count + 1) by omega]
    have := h (i + 1) (by omega)
    rwa [show pos - jump + (i + 1) = pos + 1 - jump + i by omega, show pos + (i + 1) = pos + 1 + i by omega] at this

/-- On memory, the copy writes what the copy on sequences appends. -/
theorem Memory.copyBack_eq_appendBack (m : Memory) (out : List Byte) (jump n : Nat) (hj : 1 ≤ jump)
    (ho : jump ≤ out.length) :
    (m.writeList 0 out).copyBack out.length jump n = m.writeList 0 (appendBack jump n out) := by
  induction n generalizing out with
  | zero => rfl
  | succ n ih =>
    have e : (m.writeList 0 out).read (out.length - jump) = out.getD (out.length - jump) 0 := by
      rw [Memory.read_writeList, if_pos (Nat.zero_le _), Nat.sub_zero, List.getD_eq_getElem?_getD,
        List.getElem?_eq_getElem (by omega), Option.getD_some, Option.getD_some]
    have w : (m.writeList 0 out).write out.length (out.getD (out.length - jump) 0) =
        m.writeList 0 (out ++ [out.getD (out.length - jump) 0]) := by
      rw [Memory.writeList_append, Nat.zero_add]
      rfl
    have l : out.length + 1 = (out ++ [out.getD (out.length - jump) 0]).length := by simp
    rw [Memory.copyBack, e, w, l, ih _ (by simp; omega), appendBack]

/-- The closed form of the copy (42_decoder.md R94). -/
theorem Memory.read_copyBack_closed (m : Memory) (w jump n i : Nat) (hj : 1 ≤ jump) (hw : jump ≤ w) (h : i < n) :
    (m.copyBack w jump n).read (w + i) = m.read (w - jump + i % jump) := by
  induction i using Nat.strongRecOn with
  | _ i ih =>
    rw [Memory.read_copyBack_back m w jump n i hj hw h]
    by_cases hi : i < jump
    · rw [Memory.read_copyBack_outside _ _ _ _ _ (by omega), Nat.mod_eq_of_lt hi, Nat.sub_add_comm hw]
    · rw [show w + i - jump = w + (i - jump) by omega, ih (i - jump) (by omega) (by omega),
        ← Nat.mod_eq_sub_mod (by omega)]

/-! ## One item of the token loop -/

/-- The stream has ended. -/
theorem decodeItems_end (src : Nat → Byte) (len bound fuel rd : Nat) (out : List Byte) (h : len ≤ rd) :
    decodeItems src len bound fuel rd out = ⟨out, rd, .ok⟩ := by
  cases fuel with
  | zero => rfl
  | succ fuel => rw [decodeItems, if_neg (by omega)]

/-- The two bytes of a token at `rd`. -/
theorem tokenAt_of_bytes (src : Nat → Byte) (rd : Nat) (t : Half) (rest : List Byte) (n : Nat)
    (h : readRange src rd (n + 2) = le16 t ++ rest) : tokenAt src rd = t := by
  simp only [readRange, le16, List.cons_append, List.nil_append, List.cons.injEq] at h
  rw [tokenAt, h.1, h.2.1, rd16_le16]

/-- A literal item in the stream whose checks pass (42_decoder.md R90, R91). -/
theorem decodeItems_literal (src inp : Nat → Byte) (len bound fuel rd a n : Nat) (out : List Byte) (hn : n ≤ 2047)
    (hs : readRange src rd (2 + n) = literalItem inp a n) (hl : rd + (2 + n) ≤ len) (hb : out.length + n ≤ bound) :
    decodeItems src len bound (fuel + 1) rd out =
      decodeItems src len bound fuel (rd + (2 + n)) (out ++ readRange inp a n) := by
  have hj : (BitVec.ofNat 11 n).toNat = n := by rw [BitVec.toNat_ofNat]; omega
  have ht : tokenAt src rd = tokenWord 0 (BitVec.ofNat 11 n) :=
    tokenAt_of_bytes src rd _ (readRange inp a n) n (by rw [Nat.add_comm n 2, hs]; rfl)
  have hr : readRange src (rd + 2) n = readRange inp a n := by
    rw [readRange_add] at hs
    exact (List.append_inj hs (by simp)).2
  rw [decodeItems, if_pos (by omega), if_neg (by omega), ht, decodeToken_literal]
  simp only [hj]
  rw [if_neg (by omega), if_neg (by omega), hr, Nat.add_assoc]

/-- A back-reference item in the stream whose checks pass (42_decoder.md R92, R93). -/
theorem decodeItems_backRef (src : Nat → Byte) (len bound fuel rd count jump : Nat) (out : List Byte)
    (hc : 1 ≤ count) (hc' : count ≤ 31) (hj : 1 ≤ jump) (hj' : jump ≤ 2047)
    (hs : readRange src rd 2 = backRefItem (count, jump)) (hl : rd + 2 ≤ len) (ho : jump ≤ out.length)
    (hb : out.length + count ≤ bound) :
    decodeItems src len bound (fuel + 1) rd out =
      decodeItems src len bound fuel (rd + 2) (appendBack jump count out) := by
  have ec : (BitVec.ofNat 5 count).toNat = count := by rw [BitVec.toNat_ofNat]; omega
  have ej : (BitVec.ofNat 11 jump).toNat = jump := by rw [BitVec.toNat_ofNat]; omega
  have hne : BitVec.ofNat 5 count ≠ 0 := fun h => by
    have := congrArg BitVec.toNat h
    rw [ec] at this
    simp at this
    omega
  have ht : tokenAt src rd = tokenWord (BitVec.ofNat 5 count) (BitVec.ofNat 11 jump) :=
    tokenAt_of_bytes src rd _ [] 0 (by rw [Nat.zero_add, hs]; rfl)
  rw [decodeItems, if_pos (by omega), if_neg (by omega), ht, decodeToken_backRef _ _ hne]
  simp only [ec, ej]
  rw [if_neg (by omega), if_neg (by omega)]

/-! ## Decoding what the encoder emits -/

/-- From any point of the encoder's loop on: if the stream from `rd` to its end holds what is still to be emitted, and
everything before the pending run is decoded, then the decoder ends with the whole input (42_decoder.md R96). -/
theorem decodeItems_encodeItems (inp src : Nat → Byte) (len total bound : Nat) (hb : len ≤ bound) (efuel : Nat) :
    ∀ (pos runStart rd dfuel : Nat), pos ≤ len → runStart ≤ pos → pos - runStart < 2047 → (pos = len → runStart = pos) →
      len - pos ≤ efuel → rd + (encodeItems inp len efuel pos runStart).length = total → total - rd ≤ dfuel →
      readRange src rd (total - rd) = encodeItems inp len efuel pos runStart →
      decodeItems src total bound dfuel rd (readRange inp 0 runStart) = ⟨readRange inp 0 len, total, .ok⟩ := by
  induction efuel with
  | zero =>
    intro pos runStart rd dfuel hp hr hl he hf ht hd hs
    have : pos = len := by omega
    rw [encodeItems, List.length_nil] at ht
    rw [decodeItems_end _ _ _ _ _ _ (by omega), he this, this]
    congr
  | succ efuel ih =>
    intro pos runStart rd dfuel hp hr hl he hf ht hd hs
    by_cases hlt : pos < len
    · rw [encodeItems_next _ _ _ _ _ hlt] at ht hs
      rw [List.length_append] at ht
      rcases scanStep_cases inp len pos runStart hp with
        ⟨count, jump, h1, h2, h3, h4, h5, h6, h7, h8⟩ | ⟨h1, h2, h3, h4⟩ | ⟨h1, h2, h3, h4, h5⟩
      · rw [h8] at ht hs
        simp only at ht hs
        have back : ∀ rd' df, rd' + (2 + (encodeItems inp len efuel (pos + count) (pos + count)).length) = total →
            total - rd' ≤ df →
            readRange src rd' (total - rd') =
              backRefItem (count, jump) ++ encodeItems inp len efuel (pos + count) (pos + count) →
            decodeItems src total bound df rd' (readRange inp 0 pos) = ⟨readRange inp 0 len, total, .ok⟩ := by
          intro rd' df ht' hd' hs'
          obtain ⟨df, rfl⟩ : ∃ k, df = k + 1 := ⟨df - 1, by omega⟩
          rw [show total - rd' = 2 + (total - (rd' + 2)) by omega, readRange_add] at hs'
          have := List.append_inj hs' (by simp)
          rw [decodeItems_backRef src total bound df rd' count jump _ (by omega) h2 h3 (by omega) this.1 (by omega)
            (by simpa using h5) (by rw [readRange_length]; omega), appendBack_of_match inp pos jump count h3 h5 h7]
          exact ih (pos + count) (pos + count) (rd' + 2) df h6 (Nat.le_refl _) (by omega) (fun _ => rfl) (by omega)
            (by omega) (by omega) this.2
        split at ht
        · rename_i hrun
          rw [if_pos hrun, List.append_assoc] at hs
          simp only [List.length_append, literalItem_length, backRefItem_length] at ht
          obtain ⟨dfuel, rfl⟩ : ∃ k, dfuel = k + 1 := ⟨dfuel - 1, by omega⟩
          rw [show total - rd = (2 + (pos - runStart)) + (total - (rd + (2 + (pos - runStart)))) by omega,
            readRange_add] at hs
          have := List.append_inj hs (by simp)
          rw [decodeItems_literal src inp total bound dfuel rd runStart (pos - runStart) _ (by omega) this.1 (by omega)
            (by rw [readRange_length]; omega)]
          have e : readRange inp 0 runStart ++ readRange inp runStart (pos - runStart) = readRange inp 0 pos := by
            have := readRange_add inp 0 runStart (pos - runStart)
            rw [Nat.zero_add, show runStart + (pos - runStart) = pos by omega] at this
            exact this.symm
          rw [e]
          exact back _ _ (by omega) (by omega) this.2
        · rename_i hrun
          rw [if_neg hrun, List.nil_append] at hs
          simp only [List.nil_append, backRefItem_length] at ht
          rw [show runStart = pos by omega]
          exact back rd dfuel (by omega) hd hs
      · rw [h4] at ht hs
        simp only [literalItem_length] at ht hs
        obtain ⟨dfuel, rfl⟩ : ∃ k, dfuel = k + 1 := ⟨dfuel - 1, by omega⟩
        rw [show total - rd = (2 + (pos + 1 - runStart)) + (total - (rd + (2 + (pos + 1 - runStart)))) by omega,
          readRange_add] at hs
        have := List.append_inj hs (by simp)
        rw [decodeItems_literal src inp total bound dfuel rd runStart (pos + 1 - runStart) _ (by omega) this.1 (by omega)
          (by rw [readRange_length]; omega)]
        have e : readRange inp 0 runStart ++ readRange inp runStart (pos + 1 - runStart) = readRange inp 0 (pos + 1) := by
          have := readRange_add inp 0 runStart (pos + 1 - runStart)
          rw [Nat.zero_add, show runStart + (pos + 1 - runStart) = pos + 1 by omega] at this
          exact this.symm
        rw [e]
        exact ih (pos + 1) (pos + 1) _ dfuel (by omega) (Nat.le_refl _) (by omega) (fun _ => rfl) (by omega) (by omega)
          (by omega) this.2
      · rw [h5] at ht hs
        simp only [List.length_nil, List.nil_append] at ht hs
        exact ih (pos + 1) runStart rd dfuel (by omega) (by omega) (by omega) (fun h => absurd h h2) (by omega) (by omega)
          hd hs
    · rw [encodeItems_done _ _ _ _ _ (by omega), List.length_nil] at ht
      rw [decodeItems_end _ _ _ _ _ _ (by omega), he (by omega), show pos = len by omega]
      congr

/-! ## What the token loop looks at, and how much it gives -/

/-- The token loop looks only at the bytes of the container (42_decoder.md R86). -/
theorem decodeItems_congr (src src' : Nat → Byte) (len bound : Nat) (h : ∀ i, i < len → src i = src' i) (fuel : Nat) :
    ∀ rd out, decodeItems src len bound fuel rd out = decodeItems src' len bound fuel rd out := by
  induction fuel with
  | zero => intros; rfl
  | succ fuel ih =>
    intro rd out
    rw [decodeItems, decodeItems]
    by_cases h1 : rd < len
    · rw [if_pos h1, if_pos h1]
      by_cases h2 : len - rd < 2
      · rw [if_pos h2, if_pos h2]
      · rw [if_neg h2, if_neg h2]
        have ht : tokenAt src rd = tokenAt src' rd := by rw [tokenAt, tokenAt, h _ h1, h _ (by omega)]
        rw [ht]
        rcases decodeToken_cases (tokenAt src' rd) with ⟨-, e⟩ | ⟨-, e⟩ <;> rw [e] <;> simp only
        · by_cases h3 : len - (rd + 2) < (tokenJump (tokenAt src' rd)).toNat
          · rw [if_pos h3, if_pos h3]
          · rw [if_neg h3, if_neg h3, readRange_congr src src' _ _ (fun i hi hj => h i (by omega)), ih]
        · rw [ih]
    · rw [if_neg h1, if_neg h1]

theorem decodeOutputs_congr (magic : Vector Byte 5) (src src' : Nat → Byte) (len cap : Nat) (h : ∀ i, i < len → src i = src' i) :
    decodeOutputs magic src len cap = decodeOutputs magic src' len cap := by
  have hh := headerOk_congr magic src src' len h
  unfold decodeOutputs
  rw [← hh]
  by_cases hk : headerOk magic src len = true
  · have h7 := ((headerOk_iff _ _ _).mp hk).1
    have hd : declaredLen src = declaredLen src' := by rw [declaredLen, declaredLen, h 5 (by omega), h 6 (by omega)]
    rw [if_pos hk, if_pos hk, ← hd, decodeItems_congr src src' len _ h]
  · rw [if_neg hk, if_neg hk]

/-- The output never exceeds the bound (42_decoder.md R88). -/
theorem decodeItems_out_le (src : Nat → Byte) (len bound fuel : Nat) : ∀ rd out, out.length ≤ bound →
    (decodeItems src len bound fuel rd out).out.length ≤ bound := by
  induction fuel with
  | zero => intro rd out h; exact h
  | succ fuel ih =>
    intro rd out h
    rw [decodeItems]
    by_cases h1 : rd < len
    · rw [if_pos h1]
      by_cases h2 : len - rd < 2
      · rw [if_pos h2]; exact h
      · rw [if_neg h2]
        rcases decodeToken_cases (tokenAt src rd) with ⟨-, e⟩ | ⟨-, e⟩ <;> rw [e] <;> simp only
        · split
          · exact h
          · split
            · exact h
            · apply ih; rw [List.length_append, readRange_length]; omega
        · split
          · exact h
          · split
            · exact h
            · apply ih; rw [appendBack_length]; omega
    · rw [if_neg h1]; exact h

/-- RD_POS never passes the container's end (10_state.md R30, R37). -/
theorem decodeItems_rdPos_le (src : Nat → Byte) (len bound fuel : Nat) : ∀ rd out, rd ≤ len →
    (decodeItems src len bound fuel rd out).rdPos ≤ len := by
  induction fuel with
  | zero => intro rd out h; exact h
  | succ fuel ih =>
    intro rd out h
    rw [decodeItems]
    by_cases h1 : rd < len
    · rw [if_pos h1]
      by_cases h2 : len - rd < 2
      · rw [if_pos h2]; exact h
      · rw [if_neg h2]
        rcases decodeToken_cases (tokenAt src rd) with ⟨-, e⟩ | ⟨-, e⟩ <;> rw [e] <;> simp only
        · split
          · exact h
          · split
            · exact h
            · apply ih; omega
        · split
          · exact h
          · split
            · exact h
            · apply ih; omega
    · rw [if_neg h1]; exact h

/-- DECODE writes exactly OUT_LEN bytes (42_decoder.md R86). -/
theorem decodeOutputs_length (magic : Vector Byte 5) (src : Nat → Byte) (len cap : Nat) :
    (decodeOutputs magic src len cap).written.length = (decodeOutputs magic src len cap).outLen ∧
     (decodeOutputs magic src len cap).outLen ≤ 65535 := by
  unfold decodeOutputs
  split
  · refine ⟨rfl, ?_⟩
    have := decodeItems_out_le src len (min (declaredLen src) cap) len Config.hdrLen [] (Nat.zero_le _)
    have hd : declaredLen src < 65536 := (rd16 _ _).isLt
    simp only
    omega
  · exact ⟨rfl, Nat.zero_le _⟩

end Sys2Proof.Machine
end

