-- ==== Sys2Proof/Laws/State.lean ====
section
/-! SUPPORT. What each update of the state does to each field, and how updates overwrite one another. -/

namespace Sys2Proof.Machine

section

variable (s : State) (w : Work)

@[simp] theorem State.setWork_params : (s.setWork w).params = s.params := by rfl
@[simp] theorem State.setWork_op : (s.setWork w).op = s.op := by rfl
@[simp] theorem State.setWork_irqEn : (s.setWork w).irqEn = s.irqEn := by rfl
@[simp] theorem State.setWork_done : (s.setWork w).done = s.done := by rfl
@[simp] theorem State.setWork_lenMismatch : (s.setWork w).lenMismatch = s.lenMismatch := by rfl
@[simp] theorem State.setWork_result : (s.setWork w).result = s.result := by rfl
@[simp] theorem State.setWork_srcLen : (s.setWork w).srcLen = s.srcLen := by rfl
@[simp] theorem State.setWork_dstCap : (s.setWork w).dstCap = s.dstCap := by rfl
@[simp] theorem State.setWork_outLen : (s.setWork w).outLen = s.outLen := by rfl
@[simp] theorem State.setWork_declLen : (s.setWork w).declLen = s.declLen := by rfl
@[simp] theorem State.setWork_rdPos : (s.setWork w).rdPos = s.rdPos := by rfl
@[simp] theorem State.setWork_phase : (s.setWork w).phase = .busy w := by rfl
@[simp] theorem State.setWork_src : (s.setWork w).src = s.src := by rfl
@[simp] theorem State.setWork_dst : (s.setWork w).dst = s.dst := by rfl
@[simp] theorem State.setWork_turns : (s.setWork w).turns = s.turns := by rfl
@[simp] theorem State.setWork_readData : (s.setWork w).readData = s.readData := by rfl
@[simp] theorem State.setWork_draws : (s.setWork w).draws = s.draws := by rfl
@[simp] theorem State.setWork_busy : (s.setWork w).busy = true := by rfl

end

section

variable (s : State) (ts : List Turn)

@[simp] theorem State.setTurns_params : (s.setTurns ts).params = s.params := by rfl
@[simp] theorem State.setTurns_op : (s.setTurns ts).op = s.op := by rfl
@[simp] theorem State.setTurns_irqEn : (s.setTurns ts).irqEn = s.irqEn := by rfl
@[simp] theorem State.setTurns_done : (s.setTurns ts).done = s.done := by rfl
@[simp] theorem State.setTurns_lenMismatch : (s.setTurns ts).lenMismatch = s.lenMismatch := by rfl
@[simp] theorem State.setTurns_result : (s.setTurns ts).result = s.result := by rfl
@[simp] theorem State.setTurns_srcLen : (s.setTurns ts).srcLen = s.srcLen := by rfl
@[simp] theorem State.setTurns_dstCap : (s.setTurns ts).dstCap = s.dstCap := by rfl
@[simp] theorem State.setTurns_outLen : (s.setTurns ts).outLen = s.outLen := by rfl
@[simp] theorem State.setTurns_declLen : (s.setTurns ts).declLen = s.declLen := by rfl
@[simp] theorem State.setTurns_rdPos : (s.setTurns ts).rdPos = s.rdPos := by rfl
@[simp] theorem State.setTurns_phase : (s.setTurns ts).phase = s.phase := by rfl
@[simp] theorem State.setTurns_src : (s.setTurns ts).src = s.src := by rfl
@[simp] theorem State.setTurns_dst : (s.setTurns ts).dst = s.dst := by rfl
@[simp] theorem State.setTurns_turns : (s.setTurns ts).turns = ts := by rfl
@[simp] theorem State.setTurns_readData : (s.setTurns ts).readData = s.readData := by rfl
@[simp] theorem State.setTurns_draws : (s.setTurns ts).draws = s.draws := by rfl
@[simp] theorem State.setTurns_busy : (s.setTurns ts).busy = s.busy := by rfl

end

section

variable (s : State) (op : BitVec 2) (irqEn : Bool) (w : Work)

@[simp] theorem State.start_params : (s.start op irqEn w).params = s.params := by rfl
@[simp] theorem State.start_op : (s.start op irqEn w).op = op := by rfl
@[simp] theorem State.start_irqEn : (s.start op irqEn w).irqEn = irqEn := by rfl
@[simp] theorem State.start_done : (s.start op irqEn w).done = false := by rfl
@[simp] theorem State.start_lenMismatch : (s.start op irqEn w).lenMismatch = false := by rfl
@[simp] theorem State.start_result : (s.start op irqEn w).result = .ok := by rfl
@[simp] theorem State.start_srcLen : (s.start op irqEn w).srcLen = s.srcLen := by rfl
@[simp] theorem State.start_dstCap : (s.start op irqEn w).dstCap = s.dstCap := by rfl
@[simp] theorem State.start_outLen : (s.start op irqEn w).outLen = s.outLen := by rfl
@[simp] theorem State.start_declLen : (s.start op irqEn w).declLen = s.declLen := by rfl
@[simp] theorem State.start_rdPos : (s.start op irqEn w).rdPos = s.rdPos := by rfl
@[simp] theorem State.start_phase : (s.start op irqEn w).phase = .busy w := by rfl
@[simp] theorem State.start_src : (s.start op irqEn w).src = s.src := by rfl
@[simp] theorem State.start_dst : (s.start op irqEn w).dst = s.dst := by rfl
@[simp] theorem State.start_turns : (s.start op irqEn w).turns = s.turns := by rfl
@[simp] theorem State.start_readData : (s.start op irqEn w).readData = s.readData := by rfl
@[simp] theorem State.start_draws : (s.start op irqEn w).draws = s.draws := by rfl
@[simp] theorem State.start_busy : (s.start op irqEn w).busy = true := by rfl

end

section

variable (s : State) (code : Result) (outLen declLen rdPos : Nat) (mismatch : Bool)

@[simp] theorem State.finish_params : (s.finish code outLen declLen rdPos mismatch).params = s.params := by rfl
@[simp] theorem State.finish_op : (s.finish code outLen declLen rdPos mismatch).op = s.op := by rfl
@[simp] theorem State.finish_irqEn : (s.finish code outLen declLen rdPos mismatch).irqEn = s.irqEn := by rfl
@[simp] theorem State.finish_done : (s.finish code outLen declLen rdPos mismatch).done = true := by rfl
@[simp] theorem State.finish_lenMismatch : (s.finish code outLen declLen rdPos mismatch).lenMismatch = mismatch := by rfl
@[simp] theorem State.finish_result : (s.finish code outLen declLen rdPos mismatch).result = code := by rfl
@[simp] theorem State.finish_srcLen : (s.finish code outLen declLen rdPos mismatch).srcLen = s.srcLen := by rfl
@[simp] theorem State.finish_dstCap : (s.finish code outLen declLen rdPos mismatch).dstCap = s.dstCap := by rfl
@[simp] theorem State.finish_outLen : (s.finish code outLen declLen rdPos mismatch).outLen = BitVec.ofNat 32 outLen := by rfl
@[simp] theorem State.finish_declLen : (s.finish code outLen declLen rdPos mismatch).declLen = BitVec.ofNat 32 declLen := by rfl
@[simp] theorem State.finish_rdPos : (s.finish code outLen declLen rdPos mismatch).rdPos = BitVec.ofNat 32 rdPos := by rfl
@[simp] theorem State.finish_phase : (s.finish code outLen declLen rdPos mismatch).phase = .idle := by rfl
@[simp] theorem State.finish_src : (s.finish code outLen declLen rdPos mismatch).src = s.src := by rfl
@[simp] theorem State.finish_dst : (s.finish code outLen declLen rdPos mismatch).dst = s.dst := by rfl
@[simp] theorem State.finish_turns : (s.finish code outLen declLen rdPos mismatch).turns = s.turns := by rfl
@[simp] theorem State.finish_readData : (s.finish code outLen declLen rdPos mismatch).readData = s.readData := by rfl
@[simp] theorem State.finish_draws : (s.finish code outLen declLen rdPos mismatch).draws = s.draws := by rfl
@[simp] theorem State.finish_busy : (s.finish code outLen declLen rdPos mismatch).busy = false := by rfl

end

section

variable (s : State) (op : BitVec 2) (irqEn : Bool)

@[simp] theorem State.setCtrl_params : (s.setCtrl op irqEn).params = s.params := by rfl
@[simp] theorem State.setCtrl_op : (s.setCtrl op irqEn).op = op := by rfl
@[simp] theorem State.setCtrl_irqEn : (s.setCtrl op irqEn).irqEn = irqEn := by rfl
@[simp] theorem State.setCtrl_done : (s.setCtrl op irqEn).done = s.done := by rfl
@[simp] theorem State.setCtrl_lenMismatch : (s.setCtrl op irqEn).lenMismatch = s.lenMismatch := by rfl
@[simp] theorem State.setCtrl_result : (s.setCtrl op irqEn).result = s.result := by rfl
@[simp] theorem State.setCtrl_srcLen : (s.setCtrl op irqEn).srcLen = s.srcLen := by rfl
@[simp] theorem State.setCtrl_dstCap : (s.setCtrl op irqEn).dstCap = s.dstCap := by rfl
@[simp] theorem State.setCtrl_outLen : (s.setCtrl op irqEn).outLen = s.outLen := by rfl
@[simp] theorem State.setCtrl_declLen : (s.setCtrl op irqEn).declLen = s.declLen := by rfl
@[simp] theorem State.setCtrl_rdPos : (s.setCtrl op irqEn).rdPos = s.rdPos := by rfl
@[simp] theorem State.setCtrl_phase : (s.setCtrl op irqEn).phase = s.phase := by rfl
@[simp] theorem State.setCtrl_src : (s.setCtrl op irqEn).src = s.src := by rfl
@[simp] theorem State.setCtrl_dst : (s.setCtrl op irqEn).dst = s.dst := by rfl
@[simp] theorem State.setCtrl_turns : (s.setCtrl op irqEn).turns = s.turns := by rfl
@[simp] theorem State.setCtrl_readData : (s.setCtrl op irqEn).readData = s.readData := by rfl
@[simp] theorem State.setCtrl_draws : (s.setCtrl op irqEn).draws = s.draws := by rfl
@[simp] theorem State.setCtrl_busy : (s.setCtrl op irqEn).busy = s.busy := by rfl

end

section

variable (s : State)

@[simp] theorem State.clearDone_params : (s.clearDone).params = s.params := by rfl
@[simp] theorem State.clearDone_op : (s.clearDone).op = s.op := by rfl
@[simp] theorem State.clearDone_irqEn : (s.clearDone).irqEn = s.irqEn := by rfl
@[simp] theorem State.clearDone_done : (s.clearDone).done = false := by rfl
@[simp] theorem State.clearDone_lenMismatch : (s.clearDone).lenMismatch = s.lenMismatch := by rfl
@[simp] theorem State.clearDone_result : (s.clearDone).result = s.result := by rfl
@[simp] theorem State.clearDone_srcLen : (s.clearDone).srcLen = s.srcLen := by rfl
@[simp] theorem State.clearDone_dstCap : (s.clearDone).dstCap = s.dstCap := by rfl
@[simp] theorem State.clearDone_outLen : (s.clearDone).outLen = s.outLen := by rfl
@[simp] theorem State.clearDone_declLen : (s.clearDone).declLen = s.declLen := by rfl
@[simp] theorem State.clearDone_rdPos : (s.clearDone).rdPos = s.rdPos := by rfl
@[simp] theorem State.clearDone_phase : (s.clearDone).phase = s.phase := by rfl
@[simp] theorem State.clearDone_src : (s.clearDone).src = s.src := by rfl
@[simp] theorem State.clearDone_dst : (s.clearDone).dst = s.dst := by rfl
@[simp] theorem State.clearDone_turns : (s.clearDone).turns = s.turns := by rfl
@[simp] theorem State.clearDone_readData : (s.clearDone).readData = s.readData := by rfl
@[simp] theorem State.clearDone_draws : (s.clearDone).draws = s.draws := by rfl
@[simp] theorem State.clearDone_busy : (s.clearDone).busy = s.busy := by rfl

end

section

variable (s : State) (v : Reg)

@[simp] theorem State.setSrcLen_params : (s.setSrcLen v).params = s.params := by rfl
@[simp] theorem State.setSrcLen_op : (s.setSrcLen v).op = s.op := by rfl
@[simp] theorem State.setSrcLen_irqEn : (s.setSrcLen v).irqEn = s.irqEn := by rfl
@[simp] theorem State.setSrcLen_done : (s.setSrcLen v).done = s.done := by rfl
@[simp] theorem State.setSrcLen_lenMismatch : (s.setSrcLen v).lenMismatch = s.lenMismatch := by rfl
@[simp] theorem State.setSrcLen_result : (s.setSrcLen v).result = s.result := by rfl
@[simp] theorem State.setSrcLen_srcLen : (s.setSrcLen v).srcLen = v := by rfl
@[simp] theorem State.setSrcLen_dstCap : (s.setSrcLen v).dstCap = s.dstCap := by rfl
@[simp] theorem State.setSrcLen_outLen : (s.setSrcLen v).outLen = s.outLen := by rfl
@[simp] theorem State.setSrcLen_declLen : (s.setSrcLen v).declLen = s.declLen := by rfl
@[simp] theorem State.setSrcLen_rdPos : (s.setSrcLen v).rdPos = s.rdPos := by rfl
@[simp] theorem State.setSrcLen_phase : (s.setSrcLen v).phase = s.phase := by rfl
@[simp] theorem State.setSrcLen_src : (s.setSrcLen v).src = s.src := by rfl
@[simp] theorem State.setSrcLen_dst : (s.setSrcLen v).dst = s.dst := by rfl
@[simp] theorem State.setSrcLen_turns : (s.setSrcLen v).turns = s.turns := by rfl
@[simp] theorem State.setSrcLen_readData : (s.setSrcLen v).readData = s.readData := by rfl
@[simp] theorem State.setSrcLen_draws : (s.setSrcLen v).draws = s.draws := by rfl
@[simp] theorem State.setSrcLen_busy : (s.setSrcLen v).busy = s.busy := by rfl

end

section

variable (s : State) (v : Reg)

@[simp] theorem State.setDstCap_params : (s.setDstCap v).params = s.params := by rfl
@[simp] theorem State.setDstCap_op : (s.setDstCap v).op = s.op := by rfl
@[simp] theorem State.setDstCap_irqEn : (s.setDstCap v).irqEn = s.irqEn := by rfl
@[simp] theorem State.setDstCap_done : (s.setDstCap v).done = s.done := by rfl
@[simp] theorem State.setDstCap_lenMismatch : (s.setDstCap v).lenMismatch = s.lenMismatch := by rfl
@[simp] theorem State.setDstCap_result : (s.setDstCap v).result = s.result := by rfl
@[simp] theorem State.setDstCap_srcLen : (s.setDstCap v).srcLen = s.srcLen := by rfl
@[simp] theorem State.setDstCap_dstCap : (s.setDstCap v).dstCap = v := by rfl
@[simp] theorem State.setDstCap_outLen : (s.setDstCap v).outLen = s.outLen := by rfl
@[simp] theorem State.setDstCap_declLen : (s.setDstCap v).declLen = s.declLen := by rfl
@[simp] theorem State.setDstCap_rdPos : (s.setDstCap v).rdPos = s.rdPos := by rfl
@[simp] theorem State.setDstCap_phase : (s.setDstCap v).phase = s.phase := by rfl
@[simp] theorem State.setDstCap_src : (s.setDstCap v).src = s.src := by rfl
@[simp] theorem State.setDstCap_dst : (s.setDstCap v).dst = s.dst := by rfl
@[simp] theorem State.setDstCap_turns : (s.setDstCap v).turns = s.turns := by rfl
@[simp] theorem State.setDstCap_readData : (s.setDstCap v).readData = s.readData := by rfl
@[simp] theorem State.setDstCap_draws : (s.setDstCap v).draws = s.draws := by rfl
@[simp] theorem State.setDstCap_busy : (s.setDstCap v).busy = s.busy := by rfl

end

section

variable (s : State) (v : Reg)

@[simp] theorem State.setReadData_params : (s.setReadData v).params = s.params := by rfl
@[simp] theorem State.setReadData_op : (s.setReadData v).op = s.op := by rfl
@[simp] theorem State.setReadData_irqEn : (s.setReadData v).irqEn = s.irqEn := by rfl
@[simp] theorem State.setReadData_done : (s.setReadData v).done = s.done := by rfl
@[simp] theorem State.setReadData_lenMismatch : (s.setReadData v).lenMismatch = s.lenMismatch := by rfl
@[simp] theorem State.setReadData_result : (s.setReadData v).result = s.result := by rfl
@[simp] theorem State.setReadData_srcLen : (s.setReadData v).srcLen = s.srcLen := by rfl
@[simp] theorem State.setReadData_dstCap : (s.setReadData v).dstCap = s.dstCap := by rfl
@[simp] theorem State.setReadData_outLen : (s.setReadData v).outLen = s.outLen := by rfl
@[simp] theorem State.setReadData_declLen : (s.setReadData v).declLen = s.declLen := by rfl
@[simp] theorem State.setReadData_rdPos : (s.setReadData v).rdPos = s.rdPos := by rfl
@[simp] theorem State.setReadData_phase : (s.setReadData v).phase = s.phase := by rfl
@[simp] theorem State.setReadData_src : (s.setReadData v).src = s.src := by rfl
@[simp] theorem State.setReadData_dst : (s.setReadData v).dst = s.dst := by rfl
@[simp] theorem State.setReadData_turns : (s.setReadData v).turns = s.turns := by rfl
@[simp] theorem State.setReadData_readData : (s.setReadData v).readData = v := by rfl
@[simp] theorem State.setReadData_draws : (s.setReadData v).draws = s.draws := by rfl
@[simp] theorem State.setReadData_busy : (s.setReadData v).busy = s.busy := by rfl

end

section

variable (s : State) (v : Reg)

@[simp] theorem State.drawReadData_params : (s.drawReadData v).params = s.params := by rfl
@[simp] theorem State.drawReadData_op : (s.drawReadData v).op = s.op := by rfl
@[simp] theorem State.drawReadData_irqEn : (s.drawReadData v).irqEn = s.irqEn := by rfl
@[simp] theorem State.drawReadData_done : (s.drawReadData v).done = s.done := by rfl
@[simp] theorem State.drawReadData_lenMismatch : (s.drawReadData v).lenMismatch = s.lenMismatch := by rfl
@[simp] theorem State.drawReadData_result : (s.drawReadData v).result = s.result := by rfl
@[simp] theorem State.drawReadData_srcLen : (s.drawReadData v).srcLen = s.srcLen := by rfl
@[simp] theorem State.drawReadData_dstCap : (s.drawReadData v).dstCap = s.dstCap := by rfl
@[simp] theorem State.drawReadData_outLen : (s.drawReadData v).outLen = s.outLen := by rfl
@[simp] theorem State.drawReadData_declLen : (s.drawReadData v).declLen = s.declLen := by rfl
@[simp] theorem State.drawReadData_rdPos : (s.drawReadData v).rdPos = s.rdPos := by rfl
@[simp] theorem State.drawReadData_phase : (s.drawReadData v).phase = s.phase := by rfl
@[simp] theorem State.drawReadData_src : (s.drawReadData v).src = s.src := by rfl
@[simp] theorem State.drawReadData_dst : (s.drawReadData v).dst = s.dst := by rfl
@[simp] theorem State.drawReadData_turns : (s.drawReadData v).turns = s.turns := by rfl
@[simp] theorem State.drawReadData_readData : (s.drawReadData v).readData = v := by rfl
@[simp] theorem State.drawReadData_draws : (s.drawReadData v).draws = s.draws + 1 := by rfl
@[simp] theorem State.drawReadData_busy : (s.drawReadData v).busy = s.busy := by rfl

end

section

variable (s : State) (m : Memory)

@[simp] theorem State.setSrc_params : (s.setSrc m).params = s.params := by rfl
@[simp] theorem State.setSrc_op : (s.setSrc m).op = s.op := by rfl
@[simp] theorem State.setSrc_irqEn : (s.setSrc m).irqEn = s.irqEn := by rfl
@[simp] theorem State.setSrc_done : (s.setSrc m).done = s.done := by rfl
@[simp] theorem State.setSrc_lenMismatch : (s.setSrc m).lenMismatch = s.lenMismatch := by rfl
@[simp] theorem State.setSrc_result : (s.setSrc m).result = s.result := by rfl
@[simp] theorem State.setSrc_srcLen : (s.setSrc m).srcLen = s.srcLen := by rfl
@[simp] theorem State.setSrc_dstCap : (s.setSrc m).dstCap = s.dstCap := by rfl
@[simp] theorem State.setSrc_outLen : (s.setSrc m).outLen = s.outLen := by rfl
@[simp] theorem State.setSrc_declLen : (s.setSrc m).declLen = s.declLen := by rfl
@[simp] theorem State.setSrc_rdPos : (s.setSrc m).rdPos = s.rdPos := by rfl
@[simp] theorem State.setSrc_phase : (s.setSrc m).phase = s.phase := by rfl
@[simp] theorem State.setSrc_src : (s.setSrc m).src = m := by rfl
@[simp] theorem State.setSrc_dst : (s.setSrc m).dst = s.dst := by rfl
@[simp] theorem State.setSrc_turns : (s.setSrc m).turns = s.turns := by rfl
@[simp] theorem State.setSrc_readData : (s.setSrc m).readData = s.readData := by rfl
@[simp] theorem State.setSrc_draws : (s.setSrc m).draws = s.draws := by rfl
@[simp] theorem State.setSrc_busy : (s.setSrc m).busy = s.busy := by rfl

end

section

variable (s : State) (m : Memory)

@[simp] theorem State.setDst_params : (s.setDst m).params = s.params := by rfl
@[simp] theorem State.setDst_op : (s.setDst m).op = s.op := by rfl
@[simp] theorem State.setDst_irqEn : (s.setDst m).irqEn = s.irqEn := by rfl
@[simp] theorem State.setDst_done : (s.setDst m).done = s.done := by rfl
@[simp] theorem State.setDst_lenMismatch : (s.setDst m).lenMismatch = s.lenMismatch := by rfl
@[simp] theorem State.setDst_result : (s.setDst m).result = s.result := by rfl
@[simp] theorem State.setDst_srcLen : (s.setDst m).srcLen = s.srcLen := by rfl
@[simp] theorem State.setDst_dstCap : (s.setDst m).dstCap = s.dstCap := by rfl
@[simp] theorem State.setDst_outLen : (s.setDst m).outLen = s.outLen := by rfl
@[simp] theorem State.setDst_declLen : (s.setDst m).declLen = s.declLen := by rfl
@[simp] theorem State.setDst_rdPos : (s.setDst m).rdPos = s.rdPos := by rfl
@[simp] theorem State.setDst_phase : (s.setDst m).phase = s.phase := by rfl
@[simp] theorem State.setDst_src : (s.setDst m).src = s.src := by rfl
@[simp] theorem State.setDst_dst : (s.setDst m).dst = m := by rfl
@[simp] theorem State.setDst_turns : (s.setDst m).turns = s.turns := by rfl
@[simp] theorem State.setDst_readData : (s.setDst m).readData = s.readData := by rfl
@[simp] theorem State.setDst_draws : (s.setDst m).draws = s.draws := by rfl
@[simp] theorem State.setDst_busy : (s.setDst m).busy = s.busy := by rfl

end

section

variable (s : State)

@[simp] theorem State.clearRegs_params : (s.clearRegs).params = s.params := by rfl
@[simp] theorem State.clearRegs_op : (s.clearRegs).op = 0 := by rfl
@[simp] theorem State.clearRegs_irqEn : (s.clearRegs).irqEn = false := by rfl
@[simp] theorem State.clearRegs_done : (s.clearRegs).done = false := by rfl
@[simp] theorem State.clearRegs_lenMismatch : (s.clearRegs).lenMismatch = false := by rfl
@[simp] theorem State.clearRegs_result : (s.clearRegs).result = .ok := by rfl
@[simp] theorem State.clearRegs_srcLen : (s.clearRegs).srcLen = 0 := by rfl
@[simp] theorem State.clearRegs_dstCap : (s.clearRegs).dstCap = 0 := by rfl
@[simp] theorem State.clearRegs_outLen : (s.clearRegs).outLen = 0 := by rfl
@[simp] theorem State.clearRegs_declLen : (s.clearRegs).declLen = 0 := by rfl
@[simp] theorem State.clearRegs_rdPos : (s.clearRegs).rdPos = 0 := by rfl
@[simp] theorem State.clearRegs_phase : (s.clearRegs).phase = .idle := by rfl
@[simp] theorem State.clearRegs_src : (s.clearRegs).src = s.src := by rfl
@[simp] theorem State.clearRegs_dst : (s.clearRegs).dst = s.dst := by rfl
@[simp] theorem State.clearRegs_turns : (s.clearRegs).turns = s.turns := by rfl
@[simp] theorem State.clearRegs_readData : (s.clearRegs).readData = s.readData := by rfl
@[simp] theorem State.clearRegs_draws : (s.clearRegs).draws = s.draws := by rfl
@[simp] theorem State.clearRegs_busy : (s.clearRegs).busy = false := by rfl

end

section

variable (s : State) (n : Nat)

@[simp] theorem State.drawDst_params : (s.drawDst n).params = s.params := by rfl
@[simp] theorem State.drawDst_op : (s.drawDst n).op = s.op := by rfl
@[simp] theorem State.drawDst_irqEn : (s.drawDst n).irqEn = s.irqEn := by rfl
@[simp] theorem State.drawDst_done : (s.drawDst n).done = s.done := by rfl
@[simp] theorem State.drawDst_lenMismatch : (s.drawDst n).lenMismatch = s.lenMismatch := by rfl
@[simp] theorem State.drawDst_result : (s.drawDst n).result = s.result := by rfl
@[simp] theorem State.drawDst_srcLen : (s.drawDst n).srcLen = s.srcLen := by rfl
@[simp] theorem State.drawDst_dstCap : (s.drawDst n).dstCap = s.dstCap := by rfl
@[simp] theorem State.drawDst_outLen : (s.drawDst n).outLen = s.outLen := by rfl
@[simp] theorem State.drawDst_declLen : (s.drawDst n).declLen = s.declLen := by rfl
@[simp] theorem State.drawDst_rdPos : (s.drawDst n).rdPos = s.rdPos := by rfl
@[simp] theorem State.drawDst_phase : (s.drawDst n).phase = s.phase := by rfl
@[simp] theorem State.drawDst_src : (s.drawDst n).src = s.src := by rfl
@[simp] theorem State.drawDst_dst : (s.drawDst n).dst = s.dst.drawRange 0 s.draws n := by rfl
@[simp] theorem State.drawDst_turns : (s.drawDst n).turns = s.turns := by rfl
@[simp] theorem State.drawDst_readData : (s.drawDst n).readData = s.readData := by rfl
@[simp] theorem State.drawDst_draws : (s.drawDst n).draws = s.draws + n := by rfl
@[simp] theorem State.drawDst_busy : (s.drawDst n).busy = s.busy := by rfl

end

/-! ## Overwriting -/

@[simp] theorem State.setTurns_setTurns (s : State) (ts us : List Turn) : (s.setTurns ts).setTurns us = s.setTurns us := by rfl
@[simp] theorem State.setTurns_self (s : State) : s.setTurns s.turns = s := by rfl
@[simp] theorem State.setWork_setWork (s : State) (v w : Work) : (s.setWork v).setWork w = s.setWork w := by rfl
@[simp] theorem State.setDst_setDst (s : State) (m n : Memory) : (s.setDst m).setDst n = s.setDst n := by rfl
@[simp] theorem State.setDst_self (s : State) : s.setDst s.dst = s := by rfl

theorem State.setWork_setTurns (s : State) (w : Work) (ts : List Turn) :
    (s.setTurns ts).setWork w = (s.setWork w).setTurns ts := rfl

theorem State.setDst_setTurns (s : State) (m : Memory) (ts : List Turn) :
    (s.setTurns ts).setDst m = (s.setDst m).setTurns ts := rfl

theorem State.setDst_setWork (s : State) (m : Memory) (w : Work) :
    (s.setWork w).setDst m = (s.setDst m).setWork w := rfl

theorem State.busy_iff (s : State) : s.busy = true ↔ ∃ w, s.phase = .busy w := by
  unfold State.busy
  cases s.phase <;> simp

theorem State.not_busy_iff (s : State) : s.busy = false ↔ s.phase = .idle := by
  unfold State.busy
  cases s.phase <;> simp

end Sys2Proof.Machine
end

