-- ==== Sys2Proof/Laws/Turns.lean ====
section
/-! SUPPORT. Everything a turn can do, once for each agent. -/

namespace Sys2Proof.Machine

/-! ## START -/

/-- A command word decodes to the instruction that starts the command its OP names. -/
theorem exec_of_ctrl (w : Reg) (i : Instr) (s : State) (h : decode (.ctrl w) = .ok i) :
    ctrlStart w = true ∧ exec i s = startCommand (ctrlOp w) (ctrlIrqEn w) (commandWork (ctrlOp w)) s := by
  simp only [decode, decodeCtrl] at h
  split at h
  · rename_i hs
    refine ⟨hs, ?_⟩
    injection h with h
    subst h
    unfold commandWork
    split
    · rename_i h0; simp [exec, execEncode, h0]
    · split
      · rename_i h1; simp [exec, execDecode, h1]
      · split
        · rename_i h2; simp [exec, execEstComp, h2]
        · rename_i h0 h1 h2
          have : ctrlOp w = opEstDecomp := by
            have := ctrlOp_toNat w
            have e : ∀ x : BitVec 2, ctrlOp w ≠ x → (ctrlOp w).toNat ≠ x.toNat := fun x hx hn =>
              hx (BitVec.eq_of_toNat_eq hn)
            have a := e _ h0
            have b := e _ h1
            have c := e _ h2
            apply BitVec.eq_of_toNat_eq
            simp only [opEncode, opDecode, opEstComp, opEstDecomp] at a b c ⊢
            have := (ctrlOp w).isLt
            simp at a b c ⊢
            omega
          simp [exec, execEstDecomp, this]
  · cases h

/-- A word without START decodes to no instruction. -/
theorem decode_ctrl_error (w : Reg) (e : DecodeError) (h : decode (.ctrl w) = .error e) : ctrlStart w = false := by
  simp only [decode, decodeCtrl] at h
  split at h
  · cases h
  · simpa using ‹¬ctrlStart w = true›

theorem startCommand_idle (op : BitVec 2) (irqEn : Bool) (w : Work) (s : State) (h : s.phase = .idle)
    (hm : s.portsMeet = false) : startCommand op irqEn w s = .next (s.start op irqEn w) := by
  simp [startCommand, h, hm]

theorem startCommand_refused (op : BitVec 2) (irqEn : Bool) (w : Work) (s : State) (h : s.phase = .idle)
    (hm : s.portsMeet = true) : startCommand op irqEn w s = .refused .portsOverlap := by
  simp [startCommand, h, hm]

theorem startCommand_busy (op : BitVec 2) (irqEn : Bool) (w : Work) (s : State) (h : s.busy = true) :
    startCommand op irqEn w s = .next s := by
  obtain ⟨v, hv⟩ := s.busy_iff.mp h
  simp [startCommand, hv]

/-! ## The core's turn -/

/-- The encoder's emission goes on with the bytes written, or ends with DST_OVERFLOW (41_encoder.md R83). -/
theorem encodeEmit_eq (s : State) (bs : List Byte) (e : EncRegs) (h : e.wr ≤ s.dstCap.toNat) :
    s.encodeEmit bs e =
      if s.dstCap.toNat < e.wr + bs.length then
        (s.setDst (s.dst.writeList e.wr (bs.take (s.dstCap.toNat - e.wr)))).finish .dstOverflow s.dstCap.toNat e.len 0 false
      else (s.setDst (s.dst.writeList e.wr bs)).setWork (.encoding { e with wr := e.wr + bs.length }) := by
  unfold State.encodeEmit
  rw [emitBytes_eq _ _ _ _ h]
  by_cases hc : s.dstCap.toNat < e.wr + bs.length
  · simp only [hc, decide_true, if_true, Nat.min_eq_right (Nat.le_of_lt hc)]
  · have h' : e.wr + bs.length ≤ s.dstCap.toNat := Nat.not_lt.mp hc
    simp only [hc, decide_false, if_false, Nat.min_eq_left h', List.take_of_length_le (show bs.length ≤ s.dstCap.toNat - e.wr by omega)]

/-- A token's turn is one of: the end of the stream, a truncated token, a literal, a back-reference. -/
theorem tokenTurn_cases (s : State) (d : DecRegs) :
    (d.len ≤ d.rd ∧ tokenTurn s d = .next (s.decodeEnd d)) ∨
    (d.rd < d.len ∧ d.len - d.rd < 2 ∧ tokenTurn s d = .next (s.decodeTrunc d)) ∨
    (d.rd + 2 ≤ d.len ∧ tokenCount (tokenAt s.src.read d.rd) = 0 ∧ tokenTurn s d =
      .next ((s.setWork (.decoding (fetchedRegs s.src.read d))).literal (fetchedRegs s.src.read d)
        (tokenJump (tokenAt s.src.read d.rd)).toNat)) ∨
    (d.rd + 2 ≤ d.len ∧ tokenCount (tokenAt s.src.read d.rd) ≠ 0 ∧ tokenTurn s d =
      .next ((s.setWork (.decoding (fetchedRegs s.src.read d))).backRef (fetchedRegs s.src.read d)
        (tokenCount (tokenAt s.src.read d.rd)).toNat (tokenJump (tokenAt s.src.read d.rd)).toNat)) := by
  unfold tokenTurn
  split
  · split
    · exact .inr (.inl ⟨by assumption, by assumption, rfl⟩)
    · rcases decodeToken_cases (tokenAt s.src.read d.rd) with ⟨h, e⟩ | ⟨h, e⟩
      · exact .inr (.inr (.inl ⟨by omega, h, by rw [e]; rfl⟩))
      · exact .inr (.inr (.inr ⟨by omega, h, by rw [e]; rfl⟩))
  · exact .inl ⟨by omega, rfl⟩

/-- What a literal can do (42_decoder.md R90, R91). -/
theorem literal_cases (s : State) (d : DecRegs) (n : Nat) :
    (d.len - d.rd < n ∧ s.literal d n = s.decodeStop d .truncLiteral) ∨
    (n ≤ d.len - d.rd ∧ d.bound < d.wr + n ∧ s.literal d n = s.decodeStop d .outOverrun) ∨
    (n ≤ d.len - d.rd ∧ d.wr + n ≤ d.bound ∧
      s.literal d n = (s.setDst (s.litDst d n)).setWork (.decoding (litRegs d n))) := by
  unfold State.literal
  split
  · exact .inl ⟨by assumption, rfl⟩
  · split
    · exact .inr (.inl ⟨by omega, by assumption, rfl⟩)
    · exact .inr (.inr ⟨by omega, by omega, rfl⟩)

/-- What a back-reference can do (42_decoder.md R92, R93). -/
theorem backRef_cases (s : State) (d : DecRegs) (count jump : Nat) :
    ((jump = 0 ∨ d.wr < jump) ∧ s.backRef d count jump = s.decodeStop d .badDistance) ∨
    (1 ≤ jump ∧ jump ≤ d.wr ∧ d.bound < d.wr + count ∧ s.backRef d count jump = s.decodeStop d .outOverrun) ∨
    (1 ≤ jump ∧ jump ≤ d.wr ∧ d.wr + count ≤ d.bound ∧
      s.backRef d count jump =
        (s.setDst (s.dst.copyBack d.wr jump count)).setWork (.decoding { d with wr := d.wr + count })) := by
  unfold State.backRef
  split
  · exact .inl ⟨by assumption, rfl⟩
  · split
    · exact .inr (.inl ⟨by omega, by omega, by assumption, rfl⟩)
    · exact .inr (.inr ⟨by omega, by omega, by omega, rfl⟩)

/-- A step of a BUSY core changes DST and the working registers, or completes; it always has a next state. -/
theorem coreTurn_busy (s : State) (h : s.busy = true) :
    ∃ m, (∃ w, coreTurn s = .next ((s.setDst m).setWork w)) ∨
      (∃ code o d r b, coreTurn s = .next ((s.setDst m).finish code o d r b)) := by
  obtain ⟨w, hw⟩ := s.busy_iff.mp h
  have emit : ∀ bs e, ∃ m, (∃ w, s.encodeEmit bs e = (s.setDst m).setWork w) ∨
      (∃ code o d r b, s.encodeEmit bs e = (s.setDst m).finish code o d r b) := by
    intro bs e
    unfold State.encodeEmit
    split
    · exact ⟨_, .inr ⟨_, _, _, _, _, rfl⟩⟩
    · exact ⟨_, .inl ⟨_, rfl⟩⟩
  have fin : ∀ t : State, (∃ m, (∃ w, t = (s.setDst m).setWork w) ∨
      (∃ code o d r b, t = (s.setDst m).finish code o d r b)) → coreTurn s = .next t →
      ∃ m, (∃ w, coreTurn s = .next ((s.setDst m).setWork w)) ∨
        (∃ code o d r b, coreTurn s = .next ((s.setDst m).finish code o d r b)) := by
    rintro t ⟨m, ⟨w, rfl⟩ | ⟨a, b, c, d, e, rfl⟩⟩ ht
    · exact ⟨m, .inl ⟨w, ht⟩⟩
    · exact ⟨m, .inr ⟨a, b, c, d, e, ht⟩⟩
  unfold coreTurn at fin ⊢
  cases w with
  | encodeStart =>
    simp only [hw] at fin ⊢
    refine fin _ ?_ rfl
    unfold State.encodeBegin
    split
    · exact ⟨s.dst, .inr ⟨_, _, _, _, _, rfl⟩⟩
    · exact emit _ _
  | encoding e =>
    simp only [hw] at fin ⊢
    refine fin _ ?_ rfl
    unfold State.encodeNext
    split
    · exact emit _ _
    · exact ⟨s.dst, .inr ⟨_, _, _, _, _, rfl⟩⟩
  | decodeStart =>
    simp only [hw] at fin ⊢
    refine fin _ ?_ rfl
    unfold State.decodeBegin
    split
    · exact ⟨s.dst, .inl ⟨_, rfl⟩⟩
    · exact ⟨s.dst, .inr ⟨_, _, _, _, _, rfl⟩⟩
  | decoding d =>
    simp only [hw] at fin ⊢
    rcases tokenTurn_cases s d with ⟨-, e⟩ | ⟨-, -, e⟩ | ⟨-, -, e⟩ | ⟨-, -, e⟩
    · exact fin _ ⟨s.dst, .inr ⟨_, _, _, _, _, rfl⟩⟩ e
    · exact fin _ ⟨s.dst, .inr ⟨_, _, _, _, _, rfl⟩⟩ e
    · refine fin _ ?_ e
      rcases literal_cases (s.setWork (.decoding (fetchedRegs s.src.read d))) (fetchedRegs s.src.read d)
        (tokenJump (tokenAt s.src.read d.rd)).toNat with ⟨-, e⟩ | ⟨-, -, e⟩ | ⟨-, -, e⟩ <;> rw [e]
      · exact ⟨s.dst, .inr ⟨_, _, _, _, _, rfl⟩⟩
      · exact ⟨s.dst, .inr ⟨_, _, _, _, _, rfl⟩⟩
      · exact ⟨_, .inl ⟨_, rfl⟩⟩
    · refine fin _ ?_ e
      rcases backRef_cases (s.setWork (.decoding (fetchedRegs s.src.read d))) (fetchedRegs s.src.read d)
        (tokenCount (tokenAt s.src.read d.rd)).toNat (tokenJump (tokenAt s.src.read d.rd)).toNat with
        ⟨-, e⟩ | ⟨-, -, -, e⟩ | ⟨-, -, -, e⟩ <;> rw [e]
      · exact ⟨s.dst, .inr ⟨_, _, _, _, _, rfl⟩⟩
      · exact ⟨s.dst, .inr ⟨_, _, _, _, _, rfl⟩⟩
      · exact ⟨_, .inl ⟨_, rfl⟩⟩
  | estComp =>
    simp only [hw] at fin ⊢
    refine fin _ ?_ rfl
    unfold State.estimateComp
    split <;> exact ⟨s.dst, .inr ⟨_, _, _, _, _, rfl⟩⟩
  | estDecomp =>
    simp only [hw] at fin ⊢
    refine fin _ ?_ rfl
    unfold State.estimateDecomp
    split <;> exact ⟨s.dst, .inr ⟨_, _, _, _, _, rfl⟩⟩

theorem coreTurn_idle (s : State) (h : s.phase = .idle) : coreTurn s = .next s := by
  simp [coreTurn, h]

/-! ## A host access -/

/-- What a host read can do (10_state.md R16, R32). -/
theorem readReg_cases (s : State) (r : RegName) :
    (∃ v, s.readReg r = s.setReadData v) ∨ (s.busy = true ∧ ∃ v, s.readReg r = s.drawReadData v) := by
  cases r <;> simp only [State.readReg]
  all_goals first
    | exact .inl ⟨_, rfl⟩
    | (split
       · exact .inr ⟨by assumption, _, rfl⟩
       · exact .inl ⟨_, rfl⟩)

/-- What a register write in BUSY does: nothing (10_state.md R31). -/
theorem writeRegBusy_eq (r : RegName) (v : Reg) (s : State) (h : s.busy = true) : writeRegBusy r v s = .next s := by
  cases r <;> simp only [writeRegBusy]
  split
  · rename_i i hi
    rw [(exec_of_ctrl v i s hi).2, startCommand_busy _ _ _ _ h]
  · rfl

/-- What a register write in IDLE can do when it is not refused (10_state.md R16 to R27). -/
theorem writeReg_cases (r : RegName) (v : Reg) (s t : State) (hi : s.busy = false) (h : writeReg r v s = .next t) :
    t = s ∨
    (r = .ctrl ∧ ctrlStart v = true ∧ s.portsMeet = false ∧
      t = s.start (ctrlOp v) (ctrlIrqEn v) (commandWork (ctrlOp v))) ∨
    (r = .ctrl ∧ ctrlStart v = false ∧ t = s.setCtrl (ctrlOp v) (ctrlIrqEn v)) ∨
    (r = .status ∧ statusClearsDone v = true ∧ t = s.clearDone) ∨
    (r = .srcLen ∧ t = s.setSrcLen v) ∨ (r = .dstCap ∧ t = s.setDstCap v) := by
  cases r <;> simp only [writeReg] at h
  · unfold writeCtrl at h
    split at h
    · rename_i i hd
      obtain ⟨hs, he⟩ := exec_of_ctrl v i s hd
      rw [he, startCommand, s.not_busy_iff.mp hi] at h
      simp only at h
      split at h
      · cases h
      · rename_i hm
        injection h with h
        exact .inr (.inl ⟨rfl, hs, by simpa using hm, h.symm⟩)
    · rename_i e he
      injection h with h
      exact .inr (.inr (.inl ⟨rfl, decode_ctrl_error v e he, h.symm⟩))
  · split at h <;> injection h with h
    · exact .inr (.inr (.inr (.inl ⟨rfl, by assumption, h.symm⟩)))
    · exact .inl h.symm
  · injection h with h
    exact .inr (.inr (.inr (.inr (.inl ⟨rfl, h.symm⟩))))
  · injection h with h
    exact .inr (.inr (.inr (.inr (.inr ⟨rfl, h.symm⟩))))
  all_goals injection h with h; exact .inl h.symm

/-- What a host access can do when it is not refused. -/
theorem hostTurn_cases (a : HostAccess) (s t : State) (h : hostTurn a s = .next t) :
    (∃ v, t = s.setReadData v) ∨ (s.busy = true ∧ ∃ v, t = s.drawReadData v) ∨ t = s ∨
    (s.busy = false ∧
      ((∃ off v, a = .writeReg off 32 v ∧ regAccessOk off 32 = true ∧ regAt off = .ctrl ∧ ctrlStart v = true ∧
          s.portsMeet = false ∧
          t = s.start (ctrlOp v) (ctrlIrqEn v) (commandWork (ctrlOp v))) ∨
        (∃ off v, a = .writeReg off 32 v ∧ regAt off = .ctrl ∧ ctrlStart v = false ∧
          t = s.setCtrl (ctrlOp v) (ctrlIrqEn v)) ∨
        (∃ off v, a = .writeReg off 32 v ∧ regAt off = .status ∧ statusClearsDone v = true ∧ t = s.clearDone) ∨
        (∃ v, t = s.setSrcLen v) ∨ (∃ v, t = s.setDstCap v) ∨
        (∃ o v, a = .writeSrc o v ∧ t = s.setSrc (s.src.write o.toNat v)) ∨
        (∃ o v, a = .writeDst o v ∧ t = s.setDst (s.dst.write o.toNat v)))) := by
  cases a with
  | readReg off width =>
    simp only [hostTurn] at h
    split at h
    · injection h with h
      subst h
      rcases readReg_cases s (regAt off) with ⟨v, e⟩ | ⟨hb, v, e⟩
      · exact .inl ⟨v, e⟩
      · exact .inr (.inl ⟨hb, v, e⟩)
    · cases h
  | writeReg off width v =>
    simp only [hostTurn] at h
    split at h
    · rename_i hok
      have hw : width = 32 := by
        simp only [regAccessOk, Bool.and_eq_true, beq_iff_eq] at hok
        exact hok.1
      subst hw
      split at h
      · rename_i hb
        rw [writeRegBusy_eq _ _ _ hb] at h
        injection h with h
        exact .inr (.inr (.inl h.symm))
      · rename_i hb
        have hi : s.busy = false := by simpa using hb
        rcases writeReg_cases (regAt off) v s t hi h with
          e | ⟨hr, hs, hm, e⟩ | ⟨hr, hs, e⟩ | ⟨hr, hs, e⟩ | ⟨hr, e⟩ | ⟨hr, e⟩
        · exact .inr (.inr (.inl e))
        · exact .inr (.inr (.inr ⟨hi, .inl ⟨off, v, rfl, hok, hr, hs, hm, e⟩⟩))
        · exact .inr (.inr (.inr ⟨hi, .inr (.inl ⟨off, v, rfl, hr, hs, e⟩)⟩))
        · exact .inr (.inr (.inr ⟨hi, .inr (.inr (.inl ⟨off, v, rfl, hr, hs, e⟩))⟩))
        · exact .inr (.inr (.inr ⟨hi, .inr (.inr (.inr (.inl ⟨v, e⟩)))⟩))
        · exact .inr (.inr (.inr ⟨hi, .inr (.inr (.inr (.inr (.inl ⟨v, e⟩))))⟩))
    · cases h
  | writeSrc o v =>
    simp only [hostTurn] at h
    split at h
    · cases h
    · injection h with h
      exact .inr (.inr (.inr ⟨by simpa using ‹¬ s.busy = true›,
        .inr (.inr (.inr (.inr (.inr (.inl ⟨o, v, rfl, h.symm⟩)))))⟩))
  | writeDst o v =>
    simp only [hostTurn] at h
    split at h
    · cases h
    · injection h with h
      exact .inr (.inr (.inr ⟨by simpa using ‹¬ s.busy = true›,
        .inr (.inr (.inr (.inr (.inr (.inr ⟨o, v, rfl, h.symm⟩)))))⟩))
  | readDst o =>
    simp only [hostTurn] at h
    split at h <;> injection h with h
    · exact .inr (.inl ⟨by assumption, _, h.symm⟩)
    · exact .inl ⟨_, h.symm⟩

/-! ## A step -/

/-- A step in which the core moves is the core's turn on the state without the turn (log 5). -/
theorem step_of_coreMoves (s : State) (ts : List Turn) (h : s.CoreMoves ts) : step s = coreTurn (s.setTurns ts) := by
  unfold step takeTurn
  rcases h with ⟨h, rfl⟩ | h | ⟨⟨us, h⟩, hb, rfl⟩
  · rw [h]
    exact congrArg coreTurn (by rw [← h, State.setTurns_self])
  · rw [h]
  · rw [State.setTurns_self, h]
    exact if_pos hb

/-- Whose turn a step is, and what it calls. -/
theorem step_cases (s t : State) (h : step s = .next t) :
    (∃ ts, s.CoreMoves ts ∧ coreTurn (s.setTurns ts) = .next t) ∨
    (∃ ts, s.turns = .wait :: ts ∧ s.busy = false ∧ t = s.setTurns ts) ∨
    (∃ a ts, s.turns = .host a :: ts ∧ hostTurn a (s.setTurns ts) = .next t) ∨
    (∃ ts, s.turns = .reset :: ts ∧ t = (s.setTurns ts).resetTurn) := by
  unfold step takeTurn at h
  split at h
  · rename_i hts
    exact .inl ⟨[], .inl ⟨hts, rfl⟩, by rw [← hts, State.setTurns_self]; exact h⟩
  · rename_i ts hts
    exact .inl ⟨ts, .inr (.inl hts), h⟩
  · rename_i ts hts
    split at h
    · exact .inl ⟨s.turns, .inr (.inr ⟨⟨ts, hts⟩, by assumption, rfl⟩), by rw [State.setTurns_self]; exact h⟩
    · injection h with h
      exact .inr (.inl ⟨ts, hts, by simpa using ‹¬ s.busy = true›, h.symm⟩)
  · rename_i a ts hts
    exact .inr (.inr (.inl ⟨a, ts, hts, h⟩))
  · rename_i ts hts
    injection h with h
    exact .inr (.inr (.inr ⟨ts, hts, h.symm⟩))
  · cases h

end Sys2Proof.Machine
end

