-- ==== Sys2Proof/Laws/Run.lean ====
section
/-! SUPPORT. Runs of the core alone, and where a running ENCODE and a running DECODE come to (40_commands.md R71). -/

namespace Sys2Proof.Machine

/-! ## The core's turn does not look at the turns to come -/

/-- An outcome with other turns to come. -/
def withTurns (ts : List Turn) : Host.Outcome State Fault Refusal → Host.Outcome State Fault Refusal
  | .next s => .next (s.setTurns ts)
  | .fault r => .fault r
  | .refused r => .refused r

theorem encodeEmit_setTurns (s : State) (ts : List Turn) (bs : List Byte) (e : EncRegs) :
    (s.setTurns ts).encodeEmit bs e = (s.encodeEmit bs e).setTurns ts := by
  simp only [State.encodeEmit, State.setTurns_dstCap, State.setTurns_dst]
  split <;> rfl

theorem estimateComp_setTurns (s : State) (ts : List Turn) : (s.setTurns ts).estimateComp = s.estimateComp.setTurns ts := by
  have hl : (s.setTurns ts).srcLen = s.srcLen := rfl
  by_cases h : Config.maxOrigLen < s.srcLen.toNat
  · rw [State.estimateComp, if_pos (by rw [hl]; exact h), State.estimateComp, if_pos h]
    rfl
  · rw [State.estimateComp, if_neg (by rw [hl]; exact h), State.estimateComp, if_neg h]
    rfl

theorem coreTurn_setTurns (s : State) (ts : List Turn) : coreTurn (s.setTurns ts) = withTurns ts (coreTurn s) := by
  cases hw : s.phase with
  | idle => simp [coreTurn, hw, withTurns]
  | busy w =>
    cases w with
    | encodeStart =>
      simp only [coreTurn, State.setTurns_phase, hw, State.encodeBegin, withTurns, State.setTurns_srcLen, encodeEmit_setTurns]
      split <;> rfl
    | encoding e =>
      simp only [coreTurn, State.setTurns_phase, hw, State.encodeNext, withTurns, State.setTurns_src, encodeEmit_setTurns]
      split <;> rfl
    | decodeStart =>
      simp only [coreTurn, State.setTurns_phase, hw, State.decodeBegin, withTurns]
      have : (s.setTurns ts).headerOk = s.headerOk := rfl
      rw [this]
      split <;> rfl
    | decoding d =>
      simp only [coreTurn, State.setTurns_phase, hw, tokenTurn, State.setTurns_src]
      split
      · split
        · rfl
        · rcases decodeToken_cases (tokenAt s.src.read d.rd) with ⟨-, e⟩ | ⟨-, e⟩ <;> rw [e]
          · simp only [exec, execLit, State.setWork_phase, withTurns]
            unfold State.literal
            split
            · rfl
            · split <;> rfl
          · simp only [exec, execBref, State.setWork_phase, withTurns]
            unfold State.backRef
            split
            · rfl
            · split <;> rfl
      · rfl
    | estComp =>
      simp only [coreTurn, State.setTurns_phase, hw, withTurns, estimateComp_setTurns]
    | estDecomp =>
      simp only [coreTurn, State.setTurns_phase, hw, State.estimateDecomp, withTurns]
      have : (s.setTurns ts).headerOk = s.headerOk := rfl
      rw [this]
      split <;> rfl

/-! ## Runs -/

theorem step_core (s : State) (h : s.turns = []) : step s = coreTurn s := by
  simp [step, takeTurn, h]

/-- A run of no step. -/
theorem State.RunsTo.refl (s : State) : s.RunsTo (s.setTurns []) := ⟨0, rfl⟩

/-- One step of a run. -/
theorem run_succ (M : Host.Core) (k : Nat) (s t : M.State) (h : M.step s = .next t) : M.run (k + 1) s = M.run k t := by
  rw [Host.Core.run, h]

/-- A run whose first step is known. -/
theorem State.RunsTo.step {s t u : State} (h : coreTurn s = .next t) (hr : t.RunsTo u) : s.RunsTo u := by
  obtain ⟨k, hk⟩ := hr
  refine ⟨k + 1, ?_⟩
  have e : Sys2Proof.core.step (s.setTurns []) = .next (t.setTurns []) := by
    show Machine.step (s.setTurns []) = _
    rw [step_core _ rfl, coreTurn_setTurns, h]
    rfl
  exact (run_succ Sys2Proof.core k _ _ e).trans hk

/-- A run of one step. -/
theorem State.RunsTo.one {s t : State} (h : coreTurn s = .next t) : s.RunsTo (t.setTurns []) :=
  State.RunsTo.step h (State.RunsTo.refl t)

/-! ## A running ENCODE -/

/-- From any point of the scan: what is still to be emitted goes to DST as far as it fits, and the command completes
(41_encoder.md R81, R83). -/
theorem encoding_runsTo (fuel : Nat) : ∀ (s : State) (e : EncRegs), s.phase = .busy (.encoding e) →
    e.wr ≤ s.dstCap.toNat → e.pos ≤ e.len → e.runStart ≤ e.pos → e.pos - e.runStart < Config.maxLit →
    e.len - e.pos ≤ fuel →
    let rest := encodeItems s.src.read e.len fuel e.pos e.runStart
    s.RunsTo ((((s.setDst (s.dst.writeList e.wr (rest.take (s.dstCap.toNat - e.wr)))).finish
      (if s.dstCap.toNat < e.wr + rest.length then .dstOverflow else .ok)
      (min (e.wr + rest.length) s.dstCap.toNat) e.len 0 false)).setTurns []) := by
  induction fuel with
  | zero =>
    intro s e hp hw hpos hrun hlit hf rest
    have hc : coreTurn s = .next (s.finish .ok e.wr e.len 0 false) := by
      simp [coreTurn, hp, State.encodeNext, show ¬ e.pos < e.len by omega]
    have := State.RunsTo.one hc
    simp only [rest, encodeItems, List.take_nil, Memory.writeList_nil, State.setDst_self, List.length_nil, Nat.add_zero,
      Nat.min_eq_left hw, if_neg (Nat.not_lt.mpr hw)]
    exact this
  | succ fuel ih =>
    intro s e hp hw hpos hrun hlit hf rest
    by_cases hlt : e.pos < e.len
    · obtain ⟨h1, h2, h3, h4, h5, -, -⟩ := scanStep_ranges s.src.read e.len e.pos e.runStart hlt hrun hlit
      have hrest : rest = _ := encodeItems_next s.src.read e.len fuel e.pos e.runStart hlt
      have hc : coreTurn s = .next (s.encodeNext e) := by simp [coreTurn, hp]
      simp only [State.encodeNext, if_pos hlt] at hc
      rw [encodeEmit_eq _ _ _ (by exact hw)] at hc
      by_cases hov : s.dstCap.toNat < e.wr + (scanStep s.src.read e.len e.pos e.runStart).bytes.length
      · rw [if_pos hov] at hc
        have hl : s.dstCap.toNat < e.wr + rest.length := by rw [hrest, List.length_append]; omega
        rw [if_pos hl, Nat.min_eq_right (Nat.le_of_lt hl), hrest, List.take_append_of_le_length (by omega)]
        exact State.RunsTo.one hc
      · rw [if_neg hov] at hc
        refine State.RunsTo.step hc ?_
        have := ih _ { len := e.len, pos := (scanStep s.src.read e.len e.pos e.runStart).pos,
                       runStart := (scanStep s.src.read e.len e.pos e.runStart).runStart,
                       bestLen := (scanStep s.src.read e.len e.pos e.runStart).best.1,
                       bestJump := (scanStep s.src.read e.len e.pos e.runStart).best.2,
                       wr := e.wr + (scanStep s.src.read e.len e.pos e.runStart).bytes.length }
          (State.setWork_phase (s.setDst (s.dst.writeList e.wr (scanStep s.src.read e.len e.pos e.runStart).bytes)) _)
          (by simp only [State.setWork_dstCap, State.setDst_dstCap]; omega) h2 h3 h4 (by simp only; omega)
        simp only [State.setWork_dstCap, State.setDst_dstCap, State.setWork_src, State.setDst_src, State.setWork_dst,
          State.setDst_dst] at this
        rw [hrest, List.length_append, List.take_append, List.take_of_length_le (by omega), Memory.writeList_append,
          ← Nat.add_assoc]
        rw [show s.dstCap.toNat - e.wr - (scanStep s.src.read e.len e.pos e.runStart).bytes.length =
          s.dstCap.toNat - (e.wr + (scanStep s.src.read e.len e.pos e.runStart).bytes.length) by omega]
        exact this
    · have hrest : rest = [] := encodeItems_done _ _ _ _ _ (by omega)
      have hc : coreTurn s = .next (s.finish .ok e.wr e.len 0 false) := by
        simp [coreTurn, hp, State.encodeNext, hlt]
      have := State.RunsTo.one hc
      simp only [hrest, List.take_nil, Memory.writeList_nil, State.setDst_self, List.length_nil, Nat.add_zero,
        Nat.min_eq_left hw, if_neg (Nat.not_lt.mpr hw)]
      exact this

/-! ## A running DECODE -/

/-- The token loop on sequences answers `r` and the machine completes with it, the output being `out`. -/
def PassEnds (s : State) (d : DecRegs) (out : List Byte) (r : Decoded) : Prop :=
  ∃ code p, r = ⟨out, p, code⟩ ∧
    coreTurn s = .next (s.finish code d.wr d.decl p (code == .ok && lengthsDiffer d.wr d.decl))

/-- The machine goes on with the registers `d'` and the output `out'`. -/
def PassGoesOn (s : State) (d : DecRegs) (out : List Byte) (d' : DecRegs) (out' : List Byte) : Prop :=
  d'.len = d.len ∧ d'.decl = d.decl ∧ d'.bound = d.bound ∧ d.rd < d'.rd ∧ d'.wr = out'.length ∧
    ∃ mem, coreTurn s = .next ((s.setDst mem).setWork (.decoding d')) ∧
      ∀ m : Memory, s.dst = m.writeList 0 out → mem = m.writeList 0 out'

theorem decodeStop_setWork (s : State) (w : Work) (d : DecRegs) (code : Result) (h : (code == .ok) = false) :
    (s.setWork w).decodeStop d code =
      s.finish code d.wr d.decl d.p (code == .ok && lengthsDiffer d.wr d.decl) := by
  rw [h]
  rfl

/-- One pass of the token loop, on the machine and on sequences (42_decoder.md R86). -/
theorem decoding_pass (s : State) (d : DecRegs) (out : List Byte) (fuel : Nat) (hp : s.phase = .busy (.decoding d))
    (hw : d.wr = out.length) :
    PassEnds s d out (decodeItems s.src.read d.len d.bound (fuel + 1) d.rd out) ∨
    ∃ d' out', PassGoesOn s d out d' out' ∧
      decodeItems s.src.read d.len d.bound (fuel + 1) d.rd out = decodeItems s.src.read d.len d.bound fuel d'.rd out' := by
  have hc : coreTurn s = tokenTurn s d := by simp [coreTurn, hp]
  rw [decodeItems]
  rcases tokenTurn_cases s d with ⟨h, e⟩ | ⟨h, h', e⟩ | ⟨h, ht, e⟩ | ⟨h, ht, e⟩
  · rw [if_neg (by omega)]
    exact .inl ⟨.ok, d.rd, rfl, hc.trans e⟩
  · rw [if_pos h, if_pos h']
    exact .inl ⟨.truncToken, d.rd, rfl, hc.trans e⟩
  · rw [if_pos (by omega), if_neg (by omega), decodeToken, if_pos ht]
    simp only
    rcases literal_cases (s.setWork (.decoding (fetchedRegs s.src.read d))) (fetchedRegs s.src.read d)
      (tokenJump (tokenAt s.src.read d.rd)).toNat with ⟨h1, h2⟩ | ⟨h1, h2, h3⟩ | ⟨h1, h2, h3⟩
    · rw [h2, decodeStop_setWork _ _ _ _ rfl] at e
      rw [if_pos (by exact h1)]
      exact .inl ⟨.truncLiteral, d.rd, rfl, hc.trans e⟩
    · rw [h3, decodeStop_setWork _ _ _ _ rfl] at e
      rw [if_neg (Nat.not_lt.mpr (by exact h1)), if_pos (by rw [← hw]; exact h2)]
      exact .inl ⟨.outOverrun, d.rd, rfl, hc.trans e⟩
    · rw [h3] at e
      rw [if_neg (Nat.not_lt.mpr (by exact h1)), if_neg (Nat.not_lt.mpr (by rw [← hw]; exact h2))]
      refine .inr ⟨litRegs (fetchedRegs s.src.read d) (tokenJump (tokenAt s.src.read d.rd)).toNat, _,
        ⟨rfl, rfl, rfl, ?_, ?_, _, hc.trans e, ?_⟩, rfl⟩
      · simp only [litRegs, fetchedRegs]
        omega
      · simp [litRegs, fetchedRegs, hw]
      · intro m hm
        simp only [State.litDst, State.setWork_dst, State.setWork_src, fetchedRegs]
        rw [hm, hw, Memory.writeList_append, Nat.zero_add]
  · rw [if_pos (by omega), if_neg (by omega), decodeToken, if_neg ht]
    simp only
    rcases backRef_cases (s.setWork (.decoding (fetchedRegs s.src.read d))) (fetchedRegs s.src.read d)
      (tokenCount (tokenAt s.src.read d.rd)).toNat (tokenJump (tokenAt s.src.read d.rd)).toNat with
      ⟨h1, h2⟩ | ⟨h1, h1', h2, h3⟩ | ⟨h1, h1', h2, h3⟩
    · rw [h2, decodeStop_setWork _ _ _ _ rfl] at e
      rw [if_pos (by rw [← hw]; exact h1)]
      exact .inl ⟨.badDistance, d.rd, rfl, hc.trans e⟩
    · rw [h3, decodeStop_setWork _ _ _ _ rfl] at e
      simp only [fetchedRegs] at h1'
      rw [if_neg (by omega), if_pos (by rw [← hw]; exact h2)]
      exact .inl ⟨.outOverrun, d.rd, rfl, hc.trans e⟩
    · rw [h3] at e
      simp only [fetchedRegs] at h1'
      rw [if_neg (by omega), if_neg (Nat.not_lt.mpr (by rw [← hw]; exact h2))]
      refine .inr ⟨{ fetchedRegs s.src.read d with
          wr := (fetchedRegs s.src.read d).wr + (tokenCount (tokenAt s.src.read d.rd)).toNat }, _,
        ⟨rfl, rfl, rfl, ?_, ?_, _, hc.trans e, ?_⟩, rfl⟩
      · simp only [fetchedRegs]
        omega
      · simp [fetchedRegs, hw]
      · intro m hm
        simp only [State.setWork_dst, fetchedRegs]
        rw [hm, hw]
        exact Memory.copyBack_eq_appendBack m out _ _ h1 (by rw [← hw]; exact h1')

/-- From any point of the token loop: with the output `out` in DST, the command completes as the loop on sequences does
(42_decoder.md R86). -/
theorem decoding_runsTo (m : Memory) (fuel : Nat) : ∀ (s : State) (d : DecRegs) (out : List Byte),
    s.phase = .busy (.decoding d) → s.dst = m.writeList 0 out → d.wr = out.length → d.len - d.rd ≤ fuel →
    let r := decodeItems s.src.read d.len d.bound fuel d.rd out
    s.RunsTo ((((s.setDst (m.writeList 0 r.out)).finish r.result r.out.length d.decl r.rdPos
      (r.result == .ok && lengthsDiffer r.out.length d.decl))).setTurns []) := by
  induction fuel with
  | zero =>
    intro s d out hp hd hw hf
    have hc : coreTurn s = .next (s.decodeEnd d) := by
      simp [coreTurn, hp, tokenTurn, show ¬ d.rd < d.len by omega]
    simp only [decodeItems, ← hd, ← hw, State.setDst_self]
    exact State.RunsTo.one hc
  | succ fuel ih =>
    intro s d out hp hd hw hf
    rcases decoding_pass s d out fuel hp hw with ⟨code, p, hr, hc⟩ | ⟨d', out', ⟨h1, h2, h3, h4, h5, mem, hc, hm⟩, hr⟩
    · simp only [hr, ← hd, ← hw, State.setDst_self]
      exact State.RunsTo.one hc
    · refine State.RunsTo.step hc ?_
      have := ih ((s.setDst mem).setWork (.decoding d')) d' out' rfl (hm m hd) h5 (by omega)
      simp only [State.setWork_src, State.setDst_src, h1, h2, h3, ← hr] at this
      exact this

end Sys2Proof.Machine
end

