-- ==== Sys2Proof/Laws/Inversion.lean ====
section
/-! SUPPORT. What an internal step of a running command can do in a state of the invariant, in ranges. -/

namespace Sys2Proof.Machine

/-- Everything a DST `m` written by one step of the command in `s` may have changed, `n` bytes being written after the
step: the bytes from the cursor before it to the cursor after it (20_memory.md R45). -/
structure State.StepWrites (s : State) (m : Memory) (n : Nat) : Prop where
  wf : m.wf
  inPort : m.inPort
  le : s.written ≤ n
  le_cap : n ≤ s.dstCap.toNat
  le_bound : ∀ d, s.phase = .busy (.decoding d) → n ≤ d.bound
  outside : ∀ a, a < s.written ∨ n ≤ a → m.read a = s.dst.read a
  estimating : s.op = opEstComp ∨ s.op = opEstDecomp → m = s.dst

/-- Everything a completion of the command in `s` may report (60_exceptions.md R101, 42_decoder.md R95). -/
structure State.StepEnds (s : State) (code : Result) (o d : Nat) (b : Bool) : Prop where
  out_lt : o < 2 ^ 32
  decl_lt : d ≤ Config.maxOrigLen
  mismatch : b = true ↔ s.op = opDecode ∧ code = .ok ∧ o ≠ d
  short : s.op = opDecode → code = .ok → o ≤ d
  encode : s.op = opEncode → code ∈ [Result.ok, .unrepresentable, .dstOverflow]
  decode : s.op = opDecode → code ∈ [Result.ok, .badContainer, .truncToken, .truncLiteral, .badDistance, .outOverrun]
  estComp : s.op = opEstComp → code ∈ [Result.ok, .unrepresentable]
  estDecomp : s.op = opEstDecomp → code ∈ [Result.ok, .badContainer]

/-- The bytes written so far are below the capacity, and below the bound in a DECODE. -/
theorem State.written_le (s : State) (hi : s.Inv) :
    s.written ≤ s.dstCap.toNat ∧ ∀ d, s.phase = .busy (.decoding d) → s.written ≤ d.bound := by
  unfold State.written
  split
  · rename_i e hp
    exact ⟨(hi.busy_work _ hp).2.wr_le, fun d h => by rw [hp] at h; cases h⟩
  · rename_i d hp
    have hr := (hi.busy_work _ hp).2
    have := hr.wr_le
    refine ⟨by have := hr.bound_eq; omega, fun d' h => ?_⟩
    rw [hp] at h
    injection h with h
    injection h with h
    exact h ▸ this
  · exact ⟨Nat.zero_le _, fun _ _ => Nat.zero_le _⟩

/-- The unchanged DST is within what a step may write. -/
theorem State.stepWrites_self (s : State) (hi : s.Inv) : s.StepWrites s.dst s.written :=
  ⟨hi.dst_wf, hi.dst_inPort, Nat.le_refl _, (s.written_le hi).1, (s.written_le hi).2, fun _ _ => rfl, fun _ => rfl⟩

/-- Bytes an ENCODE emits from `wr` on, below the capacity. -/
theorem State.stepWrites_emit (s : State) (hi : s.Inv) (wr : Nat) (bs : List Byte) (ho : s.op = opEncode)
    (hd : ∀ d, s.phase ≠ .busy (.decoding d)) (he : s.written = wr)
    (hb : wr + bs.length ≤ s.dstCap.toNat) : s.StepWrites (s.dst.writeList wr bs) (wr + bs.length) where
  wf := Memory.writeList_wf _ _ _ hi.dst_wf
  inPort := Memory.writeList_inPort _ _ _ hi.dst_inPort (by have := s.dstCap.isLt; simp only [Config.portAw]; omega)
  le := he ▸ Nat.le_add_right _ _
  le_cap := hb
  le_bound := fun d h => absurd h (hd d)
  outside := fun a ha => by
    rcases ha with ha | ha
    · exact Memory.read_writeList_below _ _ _ _ (he ▸ ha)
    · exact Memory.read_writeList_above _ _ _ _ ha
  estimating := by
    rw [ho]
    intro h
    rcases h with h | h <;> exact absurd h (by decide)

/-- A DST changed by a token only from `wr` up to `n`, within the bound. -/
theorem State.stepWrites_token (s : State) (d : DecRegs) (m : Memory) (n : Nat) (hp : s.phase = .busy (.decoding d))
    (ho : s.op = opDecode) (hwf : m.wf) (hin : m.inPort) (hc : d.bound ≤ s.dstCap.toNat) (hn : d.wr ≤ n)
    (hb : n ≤ d.bound) (hm : ∀ a, a < d.wr ∨ n ≤ a → m.read a = s.dst.read a) : s.StepWrites m n where
  wf := hwf
  inPort := hin
  le := by simpa [State.written, hp] using hn
  le_cap := Nat.le_trans hb hc
  le_bound := fun d' h => by
    rw [hp] at h
    injection h with h
    injection h with h
    exact h ▸ hb
  outside := by simpa [State.written, hp] using hm
  estimating := by
    rw [ho]
    intro h
    rcases h with h | h <;> exact absurd h (by decide)

/-- A completion of an ENCODE. -/
theorem State.stepEnds_encode (s : State) (code : Result) (o d : Nat) (ho : s.op = opEncode) (h1 : o < 2 ^ 32)
    (h2 : d ≤ Config.maxOrigLen) (hc : code ∈ [Result.ok, .unrepresentable, .dstOverflow]) :
    s.StepEnds code o d false := by
  refine ⟨h1, h2, ?_, ?_, fun _ => hc, ?_, ?_, ?_⟩ <;> rw [ho] <;> simp [opEncode, opDecode, opEstComp, opEstDecomp]

/-- A completion of a DECODE. -/
theorem State.stepEnds_decode (s : State) (code : Result) (o d : Nat) (ho : s.op = opDecode) (h1 : o ≤ d)
    (h2 : d ≤ Config.maxOrigLen)
    (hc : code ∈ [Result.ok, .badContainer, .truncToken, .truncLiteral, .badDistance, .outOverrun]) :
    s.StepEnds code o d (code == .ok && lengthsDiffer o d) := by
  refine ⟨by simp only [Config.maxOrigLen] at h2; omega, h2, ?_, fun _ _ => h1, ?_, fun _ => hc, ?_, ?_⟩ <;> rw [ho]
  · simp [lengthsDiffer]
  all_goals simp [opEncode, opDecode, opEstComp, opEstDecomp]

theorem State.busy_inj {s : State} {v w : Work} (h : s.phase = .busy v) (h' : s.phase = .busy w) : v = w := by
  rw [h] at h'
  injection h'

/-- Where a step of the command in `s` leaves: it goes on from DST `m` with its registers in range, `n` bytes being
written, or completes, and reports `n` bytes where it is an ENCODE or a DECODE. -/
def State.StepLeaves (s t : State) : Prop :=
  ∃ m n, s.StepWrites m n ∧
    ((∃ w, t = (s.setDst m).setWork w ∧ s.WorkOk w ∧ ((s.setDst m).setWork w).written = n) ∨
      (∃ code o d r b, t = (s.setDst m).finish code o d r b ∧ s.StepEnds code o d b ∧
        (s.op = opEncode ∨ s.op = opDecode → o = n)))

/-- What one step of a running ENCODE after a flush of bytes can do. -/
theorem State.encodeEmit_inv (s : State) (hi : s.Inv) (bs : List Byte) (e : EncRegs) (ho : s.op = opEncode)
    (hd : ∀ d, s.phase ≠ .busy (.decoding d)) (he : s.written = e.wr)
    (hw : e.wr ≤ s.dstCap.toNat) (hl : e.len ≤ Config.maxOrigLen)
    (hr : e.wr + bs.length ≤ s.dstCap.toNat →
      ({ e with wr := e.wr + bs.length } : EncRegs).InRange s.srcLen.toNat s.dstCap.toNat) :
    s.StepLeaves (s.encodeEmit bs e) := by
  rw [encodeEmit_eq _ _ _ hw]
  by_cases hov : s.dstCap.toNat < e.wr + bs.length
  · rw [if_pos hov]
    refine ⟨_, _, s.stepWrites_emit hi e.wr _ ho hd he (by rw [List.length_take]; omega),
      .inr ⟨_, _, _, _, _, rfl, s.stepEnds_encode _ _ _ ho s.dstCap.isLt hl (by simp), fun _ => ?_⟩⟩
    rw [List.length_take]
    omega
  · rw [if_neg hov]
    exact ⟨_, _, s.stepWrites_emit hi e.wr _ ho hd he (by omega), .inl ⟨_, rfl, ⟨ho, hr (by omega)⟩, rfl⟩⟩

/-- One internal step of a running command, in a state of the invariant. -/
theorem coreTurn_inv (s : State) (hi : s.Inv) (hb : s.busy = true) : ∃ t, coreTurn s = .next t ∧ s.StepLeaves t := by
  obtain ⟨w, hp⟩ := s.busy_iff.mp hb
  have hw := hi.busy_work w hp
  have hself := s.stepWrites_self hi
  have hz : ∀ v, (∀ e, v ≠ .encoding e) → (∀ d, v ≠ .decoding d) → w = v → s.written = 0 := by
    rintro v h1 h2 rfl
    unfold State.written
    rw [hp]
    cases w <;> first | rfl | exact absurd rfl (h1 _) | exact absurd rfl (h2 _)
  cases w with
  | encodeStart =>
    have hz := hz _ (fun _ h => by cases h) (fun _ h => by cases h) rfl
    refine ⟨s.encodeBegin, by simp [coreTurn, hp], ?_⟩
    unfold State.encodeBegin
    split
    · exact ⟨s.dst, _, hself, .inr ⟨_, _, _, _, _, rfl,
        s.stepEnds_encode _ _ _ hw (by decide) (by decide) (by simp), fun _ => hz.symm⟩⟩
    · rename_i hl
      refine s.encodeEmit_inv hi _ _ hw (fun d h => by rw [hp] at h; cases h) hz
        (Nat.zero_le _) (by simpa using hl) (fun h => ?_)
      simp only [headerBytes_length, Nat.zero_add] at h ⊢
      exact ⟨rfl, by simpa using hl, Nat.le_refl _, Nat.zero_le _, by simp, fun _ => rfl, Nat.zero_le _, Nat.zero_le _,
        Nat.le_refl _, h⟩
  | encoding e =>
    obtain ⟨ho, hr⟩ := hw
    have he : s.written = e.wr := by simp [State.written, hp]
    refine ⟨s.encodeNext e, by simp [coreTurn, hp], ?_⟩
    unfold State.encodeNext
    split
    · rename_i hlt
      obtain ⟨h1, h2, h3, h4, h5, h6, h7⟩ := scanStep_ranges s.src.read e.len e.pos e.runStart hlt hr.run_le hr.run_lt
      refine s.encodeEmit_inv hi _ _ ho (fun d h => by rw [hp] at h; cases h) he hr.wr_le hr.len_le (fun h => ?_)
      exact ⟨hr.len_eq, hr.len_le, h3, h2, h4, h5, h6, h7, Nat.le_trans hr.wr_ge (Nat.le_add_right _ _), h⟩
    · exact ⟨s.dst, _, hself, .inr ⟨_, _, _, _, _, rfl, s.stepEnds_encode _ _ _ ho
        (Nat.lt_of_le_of_lt hr.wr_le s.dstCap.isLt) hr.len_le (by simp), fun _ => he.symm⟩⟩
  | decodeStart =>
    have hz := hz _ (fun _ h => by cases h) (fun _ h => by cases h) rfl
    refine ⟨s.decodeBegin, by simp [coreTurn, hp], ?_⟩
    unfold State.decodeBegin
    split
    · rename_i hh
      have hl := ((headerOk_iff _ _ _).mp hh).1
      exact ⟨s.dst, _, hself, .inl ⟨_, rfl, ⟨hw, rfl, rfl, rfl, Nat.le_refl _, hl, Nat.zero_le _, Nat.le_refl _,
        Nat.le_refl _⟩, hz.symm⟩⟩
    · exact ⟨s.dst, _, hself, .inr ⟨_, _, _, _, _, rfl,
        s.stepEnds_decode _ 0 0 hw (Nat.le_refl _) (by decide) (by simp), fun _ => hz.symm⟩⟩
  | decoding d =>
    obtain ⟨ho, hr⟩ := hw
    have hc : coreTurn s = tokenTurn s d := by simp [coreTurn, hp]
    have hdecl : d.decl ≤ Config.maxOrigLen := by
      have := declaredLen_lt s.src.read
      rw [hr.decl_eq, State.declaredLen]
      simp only [Config.maxOrigLen]
      omega
    have hwb := hr.wr_le
    have hbe := hr.bound_eq
    have hcap := s.dstCap.isLt
    have stop : ∀ code p b, code ∈ [Result.ok, .badContainer, .truncToken, .truncLiteral, .badDistance, .outOverrun] →
        b = (code == .ok && lengthsDiffer d.wr d.decl) → s.StepLeaves (s.finish code d.wr d.decl p b) := by
      intro code p b hcode hb
      subst hb
      exact ⟨s.dst, _, hself, .inr ⟨_, _, _, _, _, rfl, s.stepEnds_decode _ _ _ ho (by omega) hdecl hcode,
        fun _ => by simp [State.written, hp]⟩⟩
    rcases tokenTurn_cases s d with ⟨-, e⟩ | ⟨-, -, e⟩ | ⟨h, -, e⟩ | ⟨h, -, e⟩
    · exact ⟨_, hc.trans e, stop _ _ _ (by simp) rfl⟩
    · exact ⟨_, hc.trans e, stop .truncToken d.rd false (by simp) rfl⟩
    · refine ⟨_, hc.trans e, ?_⟩
      rcases literal_cases (s.setWork (.decoding (fetchedRegs s.src.read d))) (fetchedRegs s.src.read d)
        (tokenJump (tokenAt s.src.read d.rd)).toNat with ⟨-, e⟩ | ⟨-, -, e⟩ | ⟨h1, h2, e⟩ <;> rw [e]
      · exact stop .truncLiteral d.rd false (by simp) rfl
      · exact stop .outOverrun d.rd false (by simp) rfl
      · simp only [fetchedRegs] at h1 h2
        refine ⟨_, d.wr + (tokenJump (tokenAt s.src.read d.rd)).toNat,
          s.stepWrites_token d _ _ hp ho (Memory.writeList_wf _ _ _ hi.dst_wf)
          (Memory.writeList_inPort _ d.wr (readRange s.src.read (d.rd + 2) (tokenJump (tokenAt s.src.read d.rd)).toNat)
            hi.dst_inPort ?_) (by omega) (Nat.le_add_right _ _) h2 ?_, .inl ⟨_, rfl, ⟨ho, ?_⟩, rfl⟩⟩
        · rw [readRange_length]; simp only [Config.portAw]; omega
        · intro a ha
          rcases ha with ha | ha
          · exact Memory.read_writeList_below _ _ _ _ ha
          · exact Memory.read_writeList_above _ _ _ _ (by rw [readRange_length]; omega)
        · have := hr.rd_ge
          exact ⟨hr.len_eq, hr.decl_eq, hr.bound_eq, by simp only [litRegs, fetchedRegs]; omega,
            by simp only [litRegs, fetchedRegs]; omega, h2, this, by simp only [litRegs, fetchedRegs]; omega⟩
    · refine ⟨_, hc.trans e, ?_⟩
      rcases backRef_cases (s.setWork (.decoding (fetchedRegs s.src.read d))) (fetchedRegs s.src.read d)
        (tokenCount (tokenAt s.src.read d.rd)).toNat (tokenJump (tokenAt s.src.read d.rd)).toNat with
        ⟨-, e⟩ | ⟨-, -, -, e⟩ | ⟨h1, h2, h3, e⟩ <;> rw [e]
      · exact stop .badDistance d.rd false (by simp) rfl
      · exact stop .outOverrun d.rd false (by simp) rfl
      · simp only [fetchedRegs] at h2 h3
        refine ⟨_, d.wr + (tokenCount (tokenAt s.src.read d.rd)).toNat,
          s.stepWrites_token d _ _ hp ho (Memory.copyBack_wf _ _ _ _ hi.dst_wf)
          (Memory.copyBack_inPort _ d.wr (tokenJump (tokenAt s.src.read d.rd)).toNat
            (tokenCount (tokenAt s.src.read d.rd)).toNat hi.dst_inPort ?_) (by omega) (Nat.le_add_right _ _) h3 ?_,
          .inl ⟨_, rfl, ⟨ho, ?_⟩, rfl⟩⟩
        · simp only [Config.portAw]; omega
        · exact fun a ha => Memory.read_copyBack_outside _ _ _ _ _ ha
        · have := hr.rd_ge
          exact ⟨hr.len_eq, hr.decl_eq, hr.bound_eq, by simp only [fetchedRegs]; omega,
            by simp only [fetchedRegs]; omega, h3, this, by simp only [fetchedRegs]; omega⟩
  | estComp =>
    have hw' : s.op = opEstComp := hw
    have hn : s.op = opEncode ∨ s.op = opDecode → ∀ o n : Nat, o = n := by rw [hw']; intro h; rcases h with h | h <;> cases h
    refine ⟨s.estimateComp, by simp [coreTurn, hp], ?_⟩
    unfold State.estimateComp
    split
    · refine ⟨s.dst, _, hself, .inr ⟨_, _, _, _, _, rfl, ⟨by decide, by decide, ?_, ?_, ?_, ?_, ?_, ?_⟩,
        fun h => hn h _ _⟩⟩ <;> rw [hw'] <;> simp [opEncode, opDecode, opEstComp, opEstDecomp]
    · rename_i hl
      simp only [Config.maxOrigLen] at hl
      refine ⟨s.dst, _, hself, .inr ⟨_, _, _, _, _, rfl, ⟨by unfold compressedEstimate; omega,
        by simp only [Config.maxOrigLen]; omega, ?_, ?_, ?_, ?_, ?_, ?_⟩, fun h => hn h _ _⟩⟩ <;> rw [hw'] <;>
        simp [opEncode, opDecode, opEstComp, opEstDecomp]
  | estDecomp =>
    have hw' : s.op = opEstDecomp := hw
    have hn : s.op = opEncode ∨ s.op = opDecode → ∀ o n : Nat, o = n := by rw [hw']; intro h; rcases h with h | h <;> cases h
    have hd := declaredLen_lt s.src.read
    refine ⟨s.estimateDecomp, by simp [coreTurn, hp], ?_⟩
    unfold State.estimateDecomp
    split
    · refine ⟨s.dst, _, hself, .inr ⟨_, _, _, _, _, rfl, ⟨by unfold State.declaredLen; omega,
        by simp only [Config.maxOrigLen, State.declaredLen]; omega, ?_, ?_, ?_, ?_, ?_, ?_⟩, fun h => hn h _ _⟩⟩ <;>
        rw [hw'] <;> simp [opEncode, opDecode, opEstComp, opEstDecomp]
    · refine ⟨s.dst, _, hself, .inr ⟨_, _, _, _, _, rfl, ⟨by decide, by decide, ?_, ?_, ?_, ?_, ?_, ?_⟩,
        fun h => hn h _ _⟩⟩ <;> rw [hw'] <;> simp [opEncode, opDecode, opEstComp, opEstDecomp]

end Sys2Proof.Machine
end

