-- ==== Sys2Proof/Laws/PerInstr.lean ====
section
/-! SUPPORT. What holds of each instruction as syntax: the kind of word it is encoded in, and that the word is one the
decoder accepts (30_encoding.md R57, R63, R64). -/

namespace Sys2Proof.Laws.EncodedKind

/-- Tokens are encoded as 16-bit words, commands as 32-bit CTRL words with START set (30_encoding.md R55, R64). -/
def Statement (i : Instr) : Prop :=
  match encode i with
  | .token t => (∃ n, i = .lit n) ∧ tokenCount t = 0 ∨ (∃ c j, i = .bref c j ∧ tokenCount t = c ∧ tokenJump t = j)
  | .ctrl w => ctrlStart w = true ∧ w.toNat < 264

theorem lit (jump : BitVec 11) : Statement (.lit jump) := .inl ⟨⟨jump, rfl⟩, tokenCount_tokenWord 0 jump⟩

theorem bref (count : BitVec 5) (jump : BitVec 11) : Statement (.bref count jump) :=
  .inr ⟨count, jump, rfl, tokenCount_tokenWord count jump, tokenJump_tokenWord count jump⟩

theorem encode (irqEn : Bool) : Statement (.encode irqEn) := by cases irqEn <;> exact ⟨rfl, by decide⟩

theorem decode (irqEn : Bool) : Statement (.decode irqEn) := by cases irqEn <;> exact ⟨rfl, by decide⟩

theorem estComp (irqEn : Bool) : Statement (.estComp irqEn) := by cases irqEn <;> exact ⟨rfl, by decide⟩

theorem estDecomp (irqEn : Bool) : Statement (.estDecomp irqEn) := by cases irqEn <;> exact ⟨rfl, by decide⟩

end Sys2Proof.Laws.EncodedKind
end

