-- ==== Sys2Proof/Tests/Slice0.lean ====
section
/-! SUPPORT. The well-formedness smoke test, decodings of words written out from the spec, single steps against the
vectors of 95_test_vectors.md, and for every statement with hypotheses a state that meets them. -/

namespace Sys2Proof.Tests

open Sys2Proof.Machine

/-! ## Small states -/

/-- Five bytes standing for M0 to M4: any values do (00_scope.md R7). -/
def magic : Vector Byte 5 := #v[0x4D, 0x00, 0xFF, 0x7A, 0x01]

/-- `HDR n`. -/
def header (n : Half) : List Byte := magic.toList ++ le16 n

/-- Two ports of 2^32 bytes each that share no byte. -/
def apart : Config.PortMap := { srcBase := 0, srcSize := 2 ^ 32, dstBase := 2 ^ 32, dstSize := 2 ^ 32 }

/-- An IDLE machine with apart ports, `src` behind SRC, its length in SRC_LEN, and two bytes 0xEE behind DST. -/
def idle (src : List Byte) (cap : Nat) : State :=
  { State.reset with
    params := { magic := magic, portMap := apart }
    src := Memory.writeList [] 0 src
    srcLen := BitVec.ofNat 32 src.length
    dstCap := BitVec.ofNat 32 cap
    dst := [(0, 0xEE), (1, 0xEE)] }

/-- The same with another SRC_LEN. -/
def idleLen (n : Nat) : State := { idle [] 0 with srcLen := BitVec.ofNat 32 n }

/-- The same with a SRC port of `n` bytes at system address 0 and a DST port of `m` bytes at `gap`. -/
def near (n gap m : Nat) : State :=
  { idle [] 0 with
    params := { magic := magic, portMap := { srcBase := 0, srcSize := n, dstBase := gap, dstSize := m } } }

/-- A running command. -/
def running (s : State) (op : BitVec 2) (w : Work) : State := { s with op := op, phase := .busy w }

/-- With one turn to come. -/
def before (s : State) (t : Turn) : State := { s with turns := [t] }

/-- The decoder at read cursor `rd`, `wr` bytes of 0xEE written, in a container that declares `decl` bytes. -/
def decoding (stream : List Byte) (decl : Half) (cap rd wr : Nat) : State :=
  running (idle (header decl ++ stream) cap) opDecode (.decoding
    { len := 7 + stream.length, decl := decl.toNat, bound := min decl.toNat cap, rd := rd, wr := wr, p := 7, tok := 0 })

/-- The working registers of `decoding`. -/
def decRegs (stream : List Byte) (decl : Half) (cap rd wr : Nat) : DecRegs :=
  { len := 7 + stream.length, decl := decl.toNat, bound := min decl.toNat cap, rd := rd, wr := wr, p := 7, tok := 0 }

/-- The encoder before a pass at `pos`, in a run from `runStart` on. -/
def encoding (src : List Byte) (cap pos runStart wr : Nat) : State :=
  running (idle src cap) opEncode (.encoding
    { len := src.length, pos := pos, runStart := runStart, bestLen := 0, bestJump := 0, wr := wr })

/-- The working registers of `encoding`. -/
def encRegs (src : List Byte) (pos runStart wr : Nat) : EncRegs :=
  { len := src.length, pos := pos, runStart := runStart, bestLen := 0, bestJump := 0, wr := wr }

/-- The next state, or the reset state where there is none. -/
def next (o : Host.Outcome State Fault Refusal) : State :=
  match o with
  | .next s => s
  | .fault _ => State.reset
  | .refused _ => State.reset

/-- Whether there is a next state. -/
def goesOn (o : Host.Outcome State Fault Refusal) : Bool :=
  match o with
  | .next _ => true
  | .fault _ => false
  | .refused _ => false

/-- The registers a command leaves: STATUS, OUT_LEN, DECL_LEN, RD_POS. -/
def outs (s : State) : List Nat := [s.statusWord.toNat, s.outLen.toNat, s.declLen.toNat, s.rdPos.toNat]

/-- ASCII. -/
def text (t : String) : List Byte := t.toList.map fun c => BitVec.ofNat 8 c.toNat

/-- Offsets of a byte sequence. -/
def bytesAt (bs : List Byte) (i : Nat) : Byte := bs.getD i 0

/-! ## Well-formedness -/

/-- A back-reference with `count` 0 is refused: its word is a LIT's (30_encoding.md R58). -/
theorem test_ill_formed_bref_refused :
    (Instr.bref 0 5).wellFormed = false ∧ encode (.bref 0 5) = encode (.lit 5) ∧ (Instr.bref 1 0).wellFormed = true := by
  decide

/-! ## Decoding, from words written out bit by bit -/

/-- 95_test_vectors.md 2.1: `20 00`, `E0 FF`. -/
theorem test_decode_lit :
    decodeToken 0b0000000000100000 = .lit 1 ∧ decodeToken 0b1111111111100000 = .lit 2047 ∧
      decodeTokenBytes [0x20, 0x00, 0x41] = .ok (.lit 1, [0x41]) := by decide

/-- 95_test_vectors.md 2.1: `69 00`, `C3 FF`, `FF FF`. -/
theorem test_decode_bref :
    decodeToken 0b0000000001101001 = .bref 9 3 ∧ decodeToken 0b1111111111000011 = .bref 3 2046 ∧
      decodeTokenBytes [0xFF, 0xFF] = .ok (.bref 31 2047, []) ∧ decodeTokenBytes [0xFF] = .error .truncatedToken := by
  decide

/-- 30_encoding.md R64: the eight command words, and a word without START. -/
theorem test_decode_commands :
    decodeCtrl 0b100000000 = .ok (.encode false) ∧ decodeCtrl 0b100000100 = .ok (.encode true) ∧
    decodeCtrl 0b100000001 = .ok (.decode false) ∧ decodeCtrl 0b100000101 = .ok (.decode true) ∧
    decodeCtrl 0b100000010 = .ok (.estComp false) ∧ decodeCtrl 0b100000110 = .ok (.estComp true) ∧
    decodeCtrl 0b100000011 = .ok (.estDecomp false) ∧ decodeCtrl 0b100000111 = .ok (.estDecomp true) ∧
    decodeCtrl 0xFFFFFEFF = .error .noStart := by decide

/-- The rows of spec/opcode_table.json, as the host numbers their bits. -/
theorem test_decodeTableWord :
    decodeTableWord 16 0x0020 = some (.lit 1) ∧ decodeTableWord 16 0x0069 = some (.bref 9 3) ∧
    decodeTableWord 8 0x0023 = some (.bref 3 1) ∧
    decodeTableWord 32 0x00000100 = some (.encode false) ∧ decodeTableWord 32 0x00000101 = some (.decode false) ∧
    decodeTableWord 16 0x0102 = some (.estComp false) ∧ decodeTableWord 16 0x0103 = some (.estDecomp false) ∧
    decodeTableWord 32 0x00000000 = none := by decide

/-- A step of the machine with a token, or a command word, placed by `withFetchWord` runs it. -/
theorem test_withFetchWord :
    (next (step (State.reset.withFetchWord 16 0x0040))).phase = .busy (.decoding
      { len := 11, decl := 65535, bound := 65535, rd := 11, wr := 2, p := 7, tok := 0x0040 }) ∧
    outs (next (step (State.reset.withFetchWord 16 0x0023))) = [0x62, 0, 65535, 7] ∧
    (next (step (State.reset.withFetchWord 32 0x106))).phase = .busy .estComp ∧
    (next (step (State.reset.withFetchWord 32 0x106))).irqEn = true := by decide

/-! ## Single steps, against 95_test_vectors.md -/

/-- 42_decoder.md R90, example: `LIT "AB"`. -/
theorem test_lit_example :
    let t := next (step (decoding [0x40, 0x00, 0x41, 0x42] 2 2 7 0))
    t.dst = [(0, 0x41), (1, 0x42)] ∧ t.phase = .busy (.decoding
      { len := 11, decl := 2, bound := 2, rd := 11, wr := 2, p := 7, tok := 0x40 }) := by decide

/-- V-F10: a literal past the container's end and past the bound is TRUNC_LITERAL. -/
theorem test_lit_truncated_before_overrun :
    outs (next (step (decoding [0x60, 0x00, 0x41] 1 1 7 0))) = [0x52, 0, 1, 7] := by decide

/-- 42_decoder.md R92, example: `REF 9,3` after "ABC". -/
theorem test_bref_overlaps :
    (next (exec (.bref 9 3) { decoding [] 12 12 7 3 with dst := [(0, 0x41), (1, 0x42), (2, 0x43)] })).dst =
      Memory.writeList [] 0 (text "ABCABCABCABC") := by decide

/-- V-F11: `REF 31,0` is BAD_DISTANCE before OUT_OVERRUN; P3: `REF 3,1` at wr 5 with bound 7 is OUT_OVERRUN. -/
theorem test_bref_checks :
    outs (next (step (decoding [0x20, 0x00, 0x41, 0x1F, 0x00] 2 2 10 1))) = [0x62, 1, 2, 10] ∧
    outs (next (step (decoding [0x40, 0x00, 0x78, 0x79, 0x43, 0x00, 0x23, 0x00] 7 8 13 5))) = [0x72, 5, 7, 13] := by
  decide

/-- V-E9: the tie-break. The first 8 positions are done; this pass flushes "Y" and takes distance 4, not 8. -/
theorem test_encode_tie_break :
    let t := next (step (running (idle (text "abcXabcYabc") 30) opEncode (.encoding
      { len := 11, pos := 8, runStart := 7, bestLen := 0, bestJump := 0, wr := 15 })))
    t.phase = .busy (.encoding { len := 11, pos := 11, runStart := 11, bestLen := 3, bestJump := 4, wr := 20 }) ∧
    (t.dst.drop 2).map Prod.snd = [0x20, 0x59, 0x83] := by decide

/-- V-E5, V-E7, V-E20: whole containers, and one cut at DST_CAP. -/
theorem test_encode_containers :
    encodeStream magic (bytesAt (text "AAAA")) 4 = header 4 ++ [0x20, 0x00, 0x41, 0x23, 0x00] ∧
    encodeStream magic (bytesAt (text "ABAB")) 4 = header 4 ++ [0x80, 0x00, 0x41, 0x42, 0x41, 0x42] ∧
    encodeOutputs magic (bytesAt (text "A")) 1 3 =
      { written := magic.toList.take 3, outLen := 3, declLen := 1, rdPos := 0, result := .dstOverflow,
        lenMismatch := false } := by decide

/-- V-D6 at its end of stream: OK with LEN_MISMATCH; V-F2: a single byte left. -/
theorem test_decode_ends :
    outs (next (step (decoding [0x60, 0x00, 0x61, 0x62, 0x63] 5 16 12 3))) = [0x06, 3, 5, 12] ∧
    outs (next (step (decoding [0x00] 0 0 7 0))) = [0x42, 0, 0, 7] := by decide

/-- V-D4 and V-F12, whole commands as functions. -/
theorem test_decode_streams :
    decodeOutputs magic (bytesAt (header 5 ++ [0x40, 0x00, 0x61, 0x62, 0x42, 0x00, 0x81, 0x00])) 15 5 =
      { written := text "ababa", outLen := 5, declLen := 5, rdPos := 15, result := .ok, lenMismatch := false } ∧
    decodeOutputs magic (bytesAt (magic.toList.take 4 ++ [0x02, 0x01, 0x00, 0x20, 0x00, 0x41])) 10 1 =
      { written := [], outLen := 0, declLen := 0, rdPos := 0, result := .badContainer, lenMismatch := false } := by
  decide

/-- V-C8, V-C9. -/
theorem test_est_comp :
    outs (next (step (running (idleLen 65535) opEstComp .estComp))) = [0x02, 65610, 65535, 0] ∧
    outs (next (step (running (idleLen 65536) opEstComp .estComp))) = [0x12, 0, 0, 0] := by decide

/-- V-X3, V-X5 (a wrong last byte of the tag), V-X6. -/
theorem test_est_decomp :
    outs (next (step (running (idle (header 65535) 0) opEstDecomp .estDecomp))) = [0x02, 65535, 65535, 0] ∧
    outs (next (step (running (idle (magic.toList.take 4 ++ [0x02, 0x0A, 0x00]) 0) opEstDecomp .estDecomp))) =
      [0x32, 0, 0, 0] ∧
    outs (next (step (running (idle (magic.toList ++ [0x0A]) 0) opEstDecomp .estDecomp))) = [0x32, 0, 0, 0] := by decide

/-- V-R3, V-R8, V-R9: CTRL without START, STATUS writes without and with bit [1]. -/
theorem test_register_writes :
    (next (step (before (idle [] 0) (.host (.writeReg 0x00 32 0xFFFFFEFF))))).ctrlWord = 7 ∧
    (next (step (before { idle [] 0 with done := true } (.host (.writeReg 0x04 32 0xFD))))).statusWord = 2 ∧
    (next (step (before { idle [] 0 with done := true } (.host (.writeReg 0x04 32 0xFFFFFFFF))))).statusWord = 0 := by
  decide

/-- V-R12, V-R14: a START while BUSY is ignored, STATUS reads 1. -/
theorem test_busy_accesses :
    (next (step (before (running (idle [] 0) opEncode .encodeStart) (.host (.writeReg 0x00 32 0x101))))).phase =
      .busy .encodeStart ∧
    (next (step (before (running (idle [] 0) opEncode .encodeStart) (.host (.readReg 0x04 32))))).readData = 1 := by
  decide

/-- 70_reset_and_hazards.md R120: ports that share one byte; no command is launched, an estimator no more than the others. -/
theorem test_overlapping_ports_refuse_every_launch :
    exec (.encode false) (near 4 3 9) = .refused .portsOverlap ∧
    exec (.decode false) (near 4 3 9) = .refused .portsOverlap ∧
    exec (.estComp false) (near 4 3 9) = .refused .portsOverlap ∧
    exec (.estDecomp false) (near 4 3 9) = .refused .portsOverlap ∧
    goesOn (exec (.estComp false) (near 4 4 9)) = true := ⟨rfl, rfl, rfl, rfl, by decide⟩

/-! ## Witnesses: for each statement with hypotheses, states and operands that meet them -/

/-- The core moves in a BUSY state with no turn listed, with its own turn next, and with the host waiting. -/
theorem coreMoves_of_busy (s : State) (hb : s.busy = true) (ht : s.turns = []) :
    s.CoreMoves [] ∧ (before s .core).CoreMoves [] ∧ (before s .wait).CoreMoves [.wait] :=
  ⟨.inl ⟨ht, rfl⟩, .inr (.inl rfl), .inr (.inr ⟨⟨[], rfl⟩, hb, rfl⟩)⟩

/-- The ports of `idle` share no byte. -/
theorem apart_portsMeet : portsMeet apart = false := by decide

/-- A state with small memories, IDLE, without LEN_MISMATCH, is in the invariant. -/
theorem inv_of_idle (s : State) (h : s.phase = .idle) (hs : s.src.wf ∧ s.src.inPort) (hd : s.dst.wf ∧ s.dst.inPort)
    (hl : s.declLen.toNat ≤ 65535) (hm : s.lenMismatch = false) : s.Inv :=
  ⟨hs.1, hd.1, hs.2, hd.2, fun hb => (by rw [State.busy, h] at hb; cases hb),
    fun hb => (by rw [State.busy, h] at hb; cases hb), fun w hw => (by rw [h] at hw; cases hw), hl,
    fun hb => by rw [hm] at hb; cases hb⟩

/-- A state with small memories, BUSY with the registers `w` of its command in range, is in the invariant. -/
theorem inv_of_busy (s : State) (w : Work) (h : s.phase = .busy w) (hs : s.src.wf ∧ s.src.inPort)
    (hd : s.dst.wf ∧ s.dst.inPort) (hr : s.done = false ∧ s.lenMismatch = false ∧ s.result = .ok)
    (hl : s.declLen.toNat ≤ 65535) (hp : s.portsMeet = false) (hw : s.WorkOk w) : s.Inv :=
  ⟨hs.1, hd.1, hs.2, hd.2, fun _ => hr, fun _ => hp, fun v hv => (by rw [h] at hv; injection hv with hv; exact hv ▸ hw), hl,
    fun hb => by rw [hr.2.1] at hb; cases hb⟩

theorem witness_DecodeOfEncode :
    (Instr.bref 1 0).wellFormed = true ∧ (Instr.bref 31 2047).wellFormed = true ∧ (Instr.lit 0).wellFormed = true ∧
      (Instr.lit 2047).wellFormed = true := by decide

theorem witness_CountAloneSelectsTheKind :
    tokenCount 0xFFE0 = 0 ∧ tokenCount 0x0000 = 0 ∧ tokenCount 0x0021 ≠ 0 ∧ tokenCount 0xFFFF ≠ 0 := by decide

theorem witness_CtrlWordSelectsTheCommand :
    BitVec.getLsbD (0xFFFFFEFF : Reg) 8 = false ∧ BitVec.getLsbD (0x000000F8 : Reg) 8 = false ∧
    (BitVec.getLsbD (0x100 : Reg) 8 = true ∧ (0x100 : Reg).toNat % 4 = 0) ∧
    (BitVec.getLsbD (0x101 : Reg) 8 = true ∧ (0x101 : Reg).toNat % 4 = 1) ∧
    (BitVec.getLsbD (0x102 : Reg) 8 = true ∧ (0x102 : Reg).toNat % 4 = 2) ∧
    (BitVec.getLsbD (0xFFFFFFFF : Reg) 8 = true ∧ (0xFFFFFFFF : Reg).toNat % 4 = 3) := by decide

theorem witness_StepRunsTheTokenAtTheReadCursor :
    let d := decRegs [0x20, 0x00] 1 1 7 0
    let s := decoding [0x20, 0x00] 1 1 7 0
    s.phase = .busy (.decoding d) ∧ d.rd + 2 = d.len ∧ s.turns = [] ∧ (before s .core).phase = s.phase ∧
      (before s .core).turns = [.core] ∧ (before s .wait).turns = [.wait] := by decide

theorem witness_StepRunsTheCommandWordWritten :
    (before (idle [] 0) (.host (.writeReg 0x00 32 0xFFFFFFFF))).turns = [.host (.writeReg 0x00 32 0xFFFFFFFF)] ∧
      (match decode (.ctrl 0xFFFFFFFF) with | .ok i => i = .estDecomp true | .error _ => False) := ⟨rfl, rfl⟩

theorem witness_StartBeginsTheCommand :
    (idle [] 0).phase = .idle ∧ (idle [0x41] 9).portsMeet = false ∧
    (idle (header 0) 9).portsMeet = false ∧ (running (idle [] 0) opEncode .encodeStart).busy = true ∧
    goesOn (exec (.encode true) (idle [] 0)) = true ∧ goesOn (exec (.decode true) (idle [] 0)) = true ∧
    goesOn (exec (.estComp true) (idle [] 0)) = true ∧ goesOn (exec (.estDecomp true) (idle [] 0)) = true := by decide

theorem witness_CtrlWriteStartsOrSelects :
    let t := fun s (w : Reg) => before s (.host (.writeReg 0x00 32 w))
    ((t (idle [0x41] 9) 0x100).phase = .idle ∧ BitVec.getLsbD (0x100 : Reg) 8 = true ∧
      (t (idle [0x41] 9) 0x100).portsMeet = false) ∧
    (t (idle [] 0) 0xFF).phase = .idle ∧ BitVec.getLsbD (0xFF : Reg) 8 = false ∧
    (t (running (idle [] 0) opEncode .encodeStart) 0x100).busy = true := by decide

/-- Ports that share one byte, from below and from above; ports that touch without sharing; an empty port within the
other; and two ports of 2^32 bytes, or longer, that share the last byte. -/
theorem witness_LaunchRefusedExactlyWhenPortsMeet :
    (near 4 3 9).phase = .idle ∧
    (3 < (near 4 3 9).params.portMap.srcSize ∧ 0 < (near 4 3 9).params.portMap.dstSize ∧
      (near 4 3 9).params.portMap.srcBase + 3 = (near 4 3 9).params.portMap.dstBase + 0) ∧
    (near 4 3 9).portsMeet = true ∧ (near 4 0 9).portsMeet = true ∧
    (near 4 4 9).portsMeet = false ∧ (near 4 2 0).portsMeet = false ∧ (near 0 0 9).portsMeet = false ∧
    (near (2 ^ 33) (2 ^ 32 - 1) (2 ^ 33)).portsMeet = true ∧ (near (2 ^ 33) (2 ^ 32) (2 ^ 33)).portsMeet = false := by
  decide

theorem witness_EstCompGivesTheSizingFormula :
    (idleLen 65536).phase = .idle ∧ (idleLen 65536).portsMeet = false ∧ 65535 < (idleLen 65536).srcLen.toNat ∧
    (idleLen 65535).phase = .idle ∧ (idleLen 65535).portsMeet = false ∧
    (idleLen 65535).srcLen.toNat ≤ 65535 ∧ (idleLen 65535).srcLen = 65535 ∧ (idleLen 2047).srcLen = 2047 ∧
    (idleLen 0).srcLen = 0 := by decide

theorem witness_EstDecompGivesTheDeclaredLength :
    (idle (header 9) 0).phase = .idle ∧ (idle (header 9) 0).portsMeet = false ∧
    (7 ≤ (idle (header 9) 0).srcLen.toNat ∧
      ∀ (i : Nat) (h : i < 5), (idle (header 9) 0).src.read i = (idle (header 9) 0).params.magic[i]) ∧
    (idle (magic.toList ++ [9]) 0).phase = .idle ∧ (idle (magic.toList ++ [9]) 0).portsMeet = false ∧
    ¬ (7 ≤ (idle (magic.toList ++ [9]) 0).srcLen.toNat) := by decide

theorem witness_MatchLenIsTheLongestCappedRun :
    ((1 : Nat) ≤ 1 ∧ 1 ≤ 1 ∧ 1 ≤ 40 ∧ matchLen (bytesAt (List.replicate 40 0x41)) 40 1 1 = 31) ∧
    ((1 : Nat) ≤ 4 ∧ 4 ≤ 4 ∧ 4 ≤ 4 ∧ matchLen (bytesAt (text "AAAA")) 4 4 4 = 0) := by decide

/-- No candidate, no match, and a match. -/
theorem witness_BestMatchIsLongestThenNearest :
    (bestMatch (bytesAt (text "AAAA")) 4 0).1 = 0 ∧ (bestMatch (bytesAt (text "AB")) 2 1).1 = 0 ∧
    0 < (bestMatch (bytesAt (text "AAAA")) 4 1).1 ∧ (1 ≤ min 2046 1 ∧ 1 < (bestMatch (bytesAt (text "abcXabc")) 7 4).2) := by
  decide

theorem witness_EncodeEmitsOnlyTheItemsOfTheSpec : (0 : Nat) ≤ 65535 ∧ (65535 : Nat) ≤ 65535 ∧ 0 < 65535 := by decide

theorem witness_EncodedLengthBound : (0 : Nat) ≤ 65535 ∧ (65535 : Nat) ≤ 65535 := by decide

theorem witness_EncodeRefusesUnrepresentableLengths :
    (idleLen 65536).phase = .idle ∧ (idleLen 65536).portsMeet = false ∧ 65535 < (idleLen 65536).srcLen.toNat := by
  decide

theorem witness_EncodeStepsToTheCommandFunction :
    (idle (text "AAAA") 12).phase = .idle ∧ (idle (text "AAAA") 12).portsMeet = false := by decide

/-- A capacity of exactly the container's length: the command ends OK. -/
theorem witness_EncodeOkLeavesTheContainer :
    let s := idle (text "AAAA") 12
    s.phase = .idle ∧ s.portsMeet = false ∧ s.srcLen.toNat ≤ 65535 ∧
      (encodeStream s.params.magic s.src.read s.srcLen.toNat).length ≤ s.dstCap.toNat ∧
      (s.commandDone opEncode false (s.commandOutputs opEncode)).result = .ok := by decide

/-- One byte too few. -/
theorem witness_EncodeOverflowWritesThePrefix :
    let s := idle (text "AAAA") 11
    s.phase = .idle ∧ s.portsMeet = false ∧ s.srcLen.toNat ≤ 65535 ∧
      s.dstCap.toNat < (encodeStream s.params.magic s.src.read s.srcLen.toNat).length := by decide

/-- The empty literal at the end of the container, and one that fills the container and the bound. -/
theorem witness_LitCopiesTheRawBytes :
    ((decoding [] 0 0 7 0).phase = .busy (.decoding (decRegs [] 0 0 7 0)) ∧
      (0 : BitVec 11).toNat ≤ (decRegs [] 0 0 7 0).len - 7 ∧ 0 + (0 : BitVec 11).toNat ≤ (decRegs [] 0 0 7 0).bound) ∧
    ((decoding [1, 2] 2 2 7 0).phase = .busy (.decoding (decRegs [1, 2] 2 2 7 0)) ∧
      (2 : BitVec 11).toNat ≤ (decRegs [1, 2] 2 2 7 0).len - 7 ∧
      0 + (2 : BitVec 11).toNat ≤ (decRegs [1, 2] 2 2 7 0).bound) := by decide

theorem witness_LitChecksEndTheCommand :
    ((decoding [1, 2] 2 2 7 0).phase = .busy (.decoding (decRegs [1, 2] 2 2 7 0)) ∧
      (decRegs [1, 2] 2 2 7 0).len - 7 < (3 : BitVec 11).toNat) ∧
    ((decoding [1, 2] 2 1 7 0).phase = .busy (.decoding (decRegs [1, 2] 2 1 7 0)) ∧
      (2 : BitVec 11).toNat ≤ (decRegs [1, 2] 2 1 7 0).len - 7 ∧
      (decRegs [1, 2] 2 1 7 0).bound < 0 + (2 : BitVec 11).toNat) := by decide

/-- The nearest and the farthest distance; a copy that overlaps, and one that fills the bound. -/
theorem witness_BrefCopiesByteSerially :
    (decoding [] 7 9 7 4).phase = .busy (.decoding (decRegs [] 7 9 7 4)) ∧
    (1 ≤ (1 : BitVec 11).toNat ∧ (1 : BitVec 11).toNat ≤ (decRegs [] 7 9 7 4).wr ∧
      4 + (3 : BitVec 5).toNat ≤ (decRegs [] 7 9 7 4).bound) ∧
    (1 ≤ (4 : BitVec 11).toNat ∧ (4 : BitVec 11).toNat ≤ (decRegs [] 7 9 7 4).wr ∧
      4 + (1 : BitVec 5).toNat ≤ (decRegs [] 7 9 7 4).bound) := by decide

theorem witness_BrefChecksEndTheCommand :
    (decoding [] 7 9 7 4).phase = .busy (.decoding (decRegs [] 7 9 7 4)) ∧ (0 : BitVec 11).toNat = 0 ∧
    (decRegs [] 7 9 7 4).wr < (5 : BitVec 11).toNat ∧
    (1 ≤ (4 : BitVec 11).toNat ∧ (4 : BitVec 11).toNat ≤ (decRegs [] 7 9 7 4).wr ∧
      (decRegs [] 7 9 7 4).bound < 4 + (4 : BitVec 5).toNat) := by decide

theorem witness_TokensFaultOutsideARunningDecode :
    (∀ d, (idle [] 0).phase ≠ .busy (.decoding d)) ∧
      ∀ d, (running (idle [] 0) opDecode .decodeStart).phase ≠ .busy (.decoding d) :=
  ⟨fun _ h => (by cases h), fun _ h => by cases h⟩

/-- Six bytes, and seven with a wrong tag. -/
theorem witness_DecodeRefusesABadHeader :
    let s := idle (magic.toList ++ [9]) 4
    let t := idle (0x4C :: (header 9).drop 1) 4
    (s.phase = .idle ∧ s.portsMeet = false ∧ ¬ 7 ≤ s.srcLen.toNat) ∧
    (t.phase = .idle ∧ t.portsMeet = false ∧ t.src.read 0 ≠ t.params.magic[0]) := by decide

theorem witness_DecodeBeginsAfterTheHeader :
    let s := running (idle (header 9) 4) opDecode .decodeStart
    s.phase = .busy .decodeStart ∧ (s.CoreMoves [] ∧ (before s .core).CoreMoves [] ∧ (before s .wait).CoreMoves [.wait]) ∧
      7 ≤ s.srcLen.toNat ∧ ∀ (i : Nat) (h : i < 5), s.src.read i = s.params.magic[i] :=
  ⟨rfl, coreMoves_of_busy _ rfl rfl, by decide, by decide⟩

theorem witness_SingleTrailingByteIsTruncToken :
    let s := decoding [0x20] 1 1 7 0
    s.phase = .busy (.decoding (decRegs [0x20] 1 1 7 0)) ∧
      (s.CoreMoves [] ∧ (before s .core).CoreMoves [] ∧ (before s .wait).CoreMoves [.wait]) ∧
      (decRegs [0x20] 1 1 7 0).rd + 1 = (decRegs [0x20] 1 1 7 0).len :=
  ⟨rfl, coreMoves_of_busy _ rfl rfl, rfl⟩

/-- The end of a stream in the invariant, with fewer bytes than declared. -/
theorem decoding_end_inv : (decoding [] 3 3 7 0).Inv :=
  inv_of_busy _ _ rfl (by decide) (by decide) (by decide) (by decide) rfl
    ⟨rfl, by decide, by decide, by decide, by decide, by decide, by decide, by decide, by decide⟩

theorem witness_StreamEndCompletesWithOk :
    let s := decoding [] 3 3 7 0
    s.phase = .busy (.decoding (decRegs [] 3 3 7 0)) ∧
      (s.CoreMoves [] ∧ (before s .core).CoreMoves [] ∧ (before s .wait).CoreMoves [.wait]) ∧
      s.Inv ∧ (decRegs [] 3 3 7 0).rd = (decRegs [] 3 3 7 0).len ∧ (decRegs [] 3 3 7 0).wr ≠ (decRegs [] 3 3 7 0).decl :=
  ⟨rfl, coreMoves_of_busy _ rfl rfl, decoding_end_inv, rfl, by decide⟩

theorem witness_DecodeStepsToTheCommandFunction :
    (idle (header 0) 4).phase = .idle ∧ (idle (header 0) 4).portsMeet = false := by decide

/-- The same command on a machine with other DST bytes and other leftovers. -/
theorem witness_DecodeIgnoresWhatWasBefore :
    let s := idle (header 0) 4
    let t := { idle (header 0 ++ [1, 2]) 4 with srcLen := 7, dst := [(0, 1)], done := true, result := .badDistance, outLen := 5 }
    s.phase = .idle ∧ t.phase = .idle ∧ s.portsMeet = false ∧ s.params = t.params ∧ s.srcLen = t.srcLen ∧
      s.dstCap = t.dstCap ∧ ∀ i, i < s.srcLen.toNat → s.src.read i = t.src.read i := by decide

theorem witness_DecodeOfEncodedBytesIsTheInput :
    (4 : Nat) ≤ 65535 ∧ (4 : Nat) ≤ 4 ∧
      ∀ (i : Nat) (h : i < (encodeStream magic (bytesAt (text "AAAA")) 4).length),
        bytesAt (header 4 ++ [0x20, 0x00, 0x41, 0x23, 0x00]) i = (encodeStream magic (bytesAt (text "AAAA")) 4)[i] := by
  decide

/-- A state an ENCODE of "AAAA" leaves, and the machine that decodes, or estimates, what it wrote. -/
theorem witness_EncodeThenDecodeRoundTrip :
    let s := idle (text "AAAA") 12
    let u := s.commandDone opEncode false (s.commandOutputs opEncode)
    let t := idle (header 4 ++ [0x20, 0x00, 0x41, 0x23, 0x00]) 4
    (s.phase = .idle ∧ s.portsMeet = false ∧ s.srcLen.toNat ≤ 65535 ∧
      (encodeStream s.params.magic s.src.read s.srcLen.toNat).length ≤ s.dstCap.toNat) ∧
    t.phase = .idle ∧ t.portsMeet = false ∧ t.params = s.params ∧ t.srcLen = u.outLen ∧
      (∀ i, i < u.outLen.toNat → t.src.read i = u.dst.read i) ∧ s.srcLen.toNat ≤ t.dstCap.toNat := by decide

/-- The same with room for the header alone. -/
theorem witness_EstDecompOfAnEncodedContainer :
    let s := idle (text "AAAA") 7
    let u := s.commandDone opEncode false (s.commandOutputs opEncode)
    let t := idle (header 4) 0
    (s.phase = .idle ∧ s.portsMeet = false ∧ s.srcLen.toNat ≤ 65535) ∧ 7 ≤ u.outLen.toNat ∧
    u.result = .dstOverflow ∧ t.phase = .idle ∧ t.portsMeet = false ∧ t.params = s.params ∧ t.srcLen = u.outLen ∧
      ∀ i, i < u.outLen.toNat → t.src.read i = u.dst.read i := by decide

theorem witness_RegisterReadsWhileIdle : (idle [] 0).phase = .idle := rfl

/-- A running ENCODE in the invariant. -/
theorem encoding_inv (t : Turn) : (before (running (idle [] 0) opEncode .encodeStart) t).Inv :=
  inv_of_busy _ .encodeStart rfl (show (idle [] 0).src.wf ∧ (idle [] 0).src.inPort by decide)
    (show (idle [] 0).dst.wf ∧ (idle [] 0).dst.inPort by decide) ⟨rfl, rfl, rfl⟩ (Nat.zero_le _)
    apart_portsMeet rfl

theorem witness_RegisterReadsWhileBusy (t : Turn) :
    (before (running (idle [] 0) opEncode .encodeStart) t).busy = true ∧
      (before (running (idle [] 0) opEncode .encodeStart) t).Inv := ⟨rfl, encoding_inv t⟩

theorem witness_RegisterWritesWhileIdle : (idle [] 0).phase = .idle := rfl

theorem witness_RegisterWritesWhileBusyAreIgnored :
    (running (idle [] 0) opEncode .encodeStart).busy = true ∧ (0x1C : BitVec 5).toNat % 4 = 0 ∧
      (0x00 : BitVec 5).toNat % 4 = 0 := by decide

theorem witness_MalformedRegisterAccessIsRefused : ((16 : Nat) ≠ 32 ∨ (0x00 : BitVec 5).toNat % 4 ≠ 0) ∧
    ((32 : Nat) ≠ 32 ∨ (0x1E : BitVec 5).toNat % 4 ≠ 0) := by decide

theorem witness_HostBufferAccesses :
    (idle [] 0).phase = .idle ∧ (running (idle [] 0) opEncode .encodeStart).busy = true ∧ (1 : Nat) ≠ (0 : BitVec 32).toNat := by
  decide

theorem witness_ResetClearsEveryRegister :
    (before { idle [1] 9 with done := true, outLen := 5 } .reset).phase = .idle ∧
      (before { idle [1] 9 with done := true, outLen := 5 } .reset).turns = [.reset] := by decide

/-- A reset in each command: ENCODE, DECODE past and before its header check, an estimator. -/
theorem witness_ResetWhileBusyAbandonsTheCommand :
    ((before (running (idle [] 0) opEncode .encodeStart) .reset).phase = .busy .encodeStart ∧
      (before (running (idle [] 0) opEncode .encodeStart) .reset).Inv ∧
      (before (running (idle [] 0) opEncode .encodeStart) .reset).op = opEncode) ∧
    ((before (decoding [] 3 3 7 0) .reset).phase = .busy (.decoding (decRegs [] 3 3 7 0)) ∧
      (before (decoding [] 3 3 7 0) .reset).Inv ∧ (before (decoding [] 3 3 7 0) .reset).op = opDecode ∧
      min (before (decoding [] 3 3 7 0) .reset).declaredLen (before (decoding [] 3 3 7 0) .reset).dstCap.toNat = 3) ∧
    ((before (running (idle (header 2) 1) opDecode .decodeStart) .reset).Inv ∧
      7 ≤ (before (running (idle (header 2) 1) opDecode .decodeStart) .reset).srcLen.toNat) ∧
    ((before (running (idle [] 0) opEstComp .estComp) .reset).Inv ∧
      (before (running (idle [] 0) opEstComp .estComp) .reset).op = opEstComp) :=
  ⟨⟨rfl, encoding_inv _, rfl⟩,
    ⟨rfl, inv_of_busy _ (.decoding (decRegs [] 3 3 7 0)) rfl (by decide) (by decide) (by decide) (by decide) rfl
      ⟨rfl, by decide, by decide, by decide, by decide, by decide, by decide, by decide, by decide⟩, rfl, by decide⟩,
    ⟨inv_of_busy _ .decodeStart rfl (by decide) (by decide) (by decide) (by decide) rfl rfl, by decide⟩,
    ⟨inv_of_busy _ .estComp rfl (by decide) (by decide) (by decide) (by decide) rfl rfl, rfl⟩⟩

/-- A step in the invariant that emits, one that completes, and one of the host. -/
theorem witness_EveryStepKeepsTheInvariant :
    ((running (idle [] 0) opEncode .encodeStart).Inv ∧ goesOn (step (running (idle [] 0) opEncode .encodeStart)) = true) ∧
    ((decoding [] 3 3 7 0).Inv ∧ goesOn (step (decoding [] 3 3 7 0)) = true) ∧
    ((before (idle [] 0) (.host (.writeSrc 0xFFFFFFFF 1))).Inv ∧
      goesOn (step (before (idle [] 0) (.host (.writeSrc 0xFFFFFFFF 1)))) = true) :=
  ⟨⟨inv_of_busy _ .encodeStart rfl (by decide) (by decide) (by decide) (by decide) rfl rfl, by decide⟩,
    ⟨decoding_end_inv, by decide⟩,
    ⟨inv_of_idle _ rfl (by decide) (by decide) (by decide) rfl, by decide⟩⟩

theorem witness_AllowedTurnsAlwaysHaveANextState :
    (idle [] 0).TurnAllowed ∧ (before (idle [0x41] 9) (.host (.writeReg 0x00 32 0x100))).TurnAllowed ∧
      (before (running (idle [] 0) opEncode .encodeStart) (.host (.readDst 0))).TurnAllowed :=
  ⟨trivial, ⟨rfl, fun _ _ _ => by decide⟩, trivial⟩

/-- A START, a step that completes, a reset, and a step within a command. -/
theorem witness_PhaseChangesOnlyAsTheSpecSays :
    let a := before (idle [] 0) (.host (.writeReg 0x00 32 0x101))
    let b := decoding [] 3 3 7 0
    let c := before (decoding [] 0 3 7 0) .reset
    let d := running (idle (header 2) 0) opDecode .decodeStart
    (goesOn (step a) = true ∧ a.busy = false ∧ (next (step a)).busy = true) ∧
    (goesOn (step b) = true ∧ b.busy = true ∧ (next (step b)).busy = false) ∧
    (goesOn (step c) = true ∧ c.busy = true ∧ (next (step c)).busy = false) ∧
    (goesOn (step d) = true ∧ d.busy = true ∧ (next (step d)).busy = true) := by decide

/-- DONE set by a completion; cleared by a START, by a reset and by W1C. -/
theorem witness_DoneChangesOnlyAsTheSpecSays :
    let a := decoding [] 3 3 7 0
    let b := before { idle [] 0 with done := true } (.host (.writeReg 0x00 32 0x101))
    let c := before { idle [] 0 with done := true } .reset
    let d := before { idle [] 0 with done := true } (.host (.writeReg 0x04 32 2))
    (goesOn (step a) = true ∧ a.done = false ∧ (next (step a)).done = true) ∧
    (goesOn (step b) = true ∧ b.done = true ∧ (next (step b)).done = false) ∧
    (goesOn (step c) = true ∧ c.done = true ∧ (next (step c)).done = false) ∧
    (goesOn (step d) = true ∧ d.done = true ∧ (next (step d)).done = false) := by decide

/-- A completion with LEN_MISMATCH, and a START. -/
theorem witness_LenMismatchIsDecodeUnderProduction :
    ((decoding [] 3 3 7 0).Inv ∧ (decoding [] 3 3 7 0).busy = true ∧ (next (step (decoding [] 3 3 7 0))).busy = false ∧
      (next (step (decoding [] 3 3 7 0))).done = true ∧ (next (step (decoding [] 3 3 7 0))).lenMismatch = true) ∧
    ((before { idle [] 0 with declLen := 2 } (.host (.writeReg 0x00 32 0x101))).Inv ∧
      (next (step (before { idle [] 0 with declLen := 2 } (.host (.writeReg 0x00 32 0x101))))).busy = true) :=
  ⟨⟨decoding_end_inv, by decide, by decide, by decide, by decide⟩,
    ⟨inv_of_idle _ rfl (by decide) (by decide) (by decide) rfl, by decide⟩⟩

/-- A completion of each command. -/
theorem witness_ResultCodesOfEachCommand :
    let ends := fun s : State => goesOn (step s) = true ∧ s.busy = true ∧ (next (step s)).busy = false ∧
      (next (step s)).done = true
    ((running (idle [] 0) opEncode .encodeStart).Inv ∧ ends (running (idle [] 0) opEncode .encodeStart)) ∧
    ((decoding [] 3 3 7 0).Inv ∧ ends (decoding [] 3 3 7 0)) ∧
    ((running (idle [] 0) opEstComp .estComp).Inv ∧ ends (running (idle [] 0) opEstComp .estComp)) ∧
    ((running (idle [] 0) opEstDecomp .estDecomp).Inv ∧ ends (running (idle [] 0) opEstDecomp .estDecomp)) :=
  ⟨⟨inv_of_busy _ .encodeStart rfl (by decide) (by decide) (by decide) (by decide) rfl rfl, by decide⟩,
    ⟨decoding_end_inv, by decide⟩,
    ⟨inv_of_busy _ .estComp rfl (by decide) (by decide) (by decide) (by decide) rfl rfl, by decide⟩,
    ⟨inv_of_busy _ .estDecomp rfl (by decide) (by decide) (by decide) (by decide) rfl rfl, by decide⟩⟩

/-- The interrupt rises by a completion, and by IRQ_EN set while DONE = 1. -/
theorem witness_InterruptFollowsDoneAndEnable :
    let a := { decoding [] 3 3 7 0 with irqEn := true }
    let b := before { idle [] 0 with done := true } (.host (.writeReg 0x00 32 4))
    (goesOn (step a) = true ∧ a.irq = false ∧ (next (step a)).irq = true ∧ a.busy = true ∧ (next (step a)).busy = false) ∧
    (goesOn (step b) = true ∧ b.irq = false ∧ (next (step b)).irq = true) := by decide

theorem witness_OnlyTheHostWritesSrc :
    goesOn (step (before (idle [] 0) (.host (.writeSrc 3 1)))) = true ∧
      (next (step (before (idle [] 0) (.host (.writeSrc 3 1))))).src ≠ (before (idle [] 0) (.host (.writeSrc 3 1))).src := by
  decide

/-- The encoder's registers `e` at a pass on `s`: BUSY with them, the core to move, in the invariant. -/
def atPass (s : State) (e : EncRegs) : Prop :=
  s.phase = .busy (.encoding e) ∧ (s.CoreMoves [] ∧ (before s .core).CoreMoves [] ∧ (before s .wait).CoreMoves [.wait]) ∧
    s.Inv

/-- `encoding` with cursors in their ranges is at a pass. -/
theorem atPass_of_inRange (src : List Byte) (cap pos runStart wr : Nat)
    (hs : (idle src cap).src.wf ∧ (idle src cap).src.inPort) (hd : (idle src cap).dst.wf ∧ (idle src cap).dst.inPort)
    (hw : (encRegs src pos runStart wr).InRange (idle src cap).srcLen.toNat (idle src cap).dstCap.toNat) :
    atPass (encoding src cap pos runStart wr) (encRegs src pos runStart wr) :=
  ⟨rfl, coreMoves_of_busy _ rfl rfl, inv_of_busy _ _ rfl hs hd ⟨rfl, rfl, rfl⟩ (Nat.zero_le _) apart_portsMeet
    ⟨rfl, hw⟩⟩

/-- A pass of an ENCODE that writes, a step of a DECODE, and one of an estimator. -/
theorem witness_CommandsWriteDstOnceBelowCapacity :
    let a := encoding [0x41] 10 0 0 7
    let b := running (idle [] 0) opEstComp .estComp
    (atPass a (encRegs [0x41] 0 0 7) ∧ a.busy = true ∧ goesOn (step a) = true ∧ a.op = opEncode ∧ a.written = 7 ∧
      (next (step a)).busy = true ∧ (next (step a)).written = 10 ∧ a.dstCap.toNat = 10) ∧
    ((decoding [] 3 3 7 0).Inv ∧ (decoding [] 3 3 7 0).busy = true ∧ goesOn (step (decoding [] 3 3 7 0)) = true ∧
      (decoding [] 3 3 7 0).phase = .busy (.decoding (decRegs [] 3 3 7 0)) ∧ (decRegs [] 3 3 7 0).bound ≤ 3) ∧
    (b.Inv ∧ b.busy = true ∧ (b.CoreMoves [] ∧ (before b .core).CoreMoves [] ∧ (before b .wait).CoreMoves [.wait]) ∧
      goesOn (step b) = true ∧ b.op = opEstComp) :=
  ⟨⟨atPass_of_inRange [0x41] 10 0 0 7 (by decide) (by decide)
      ⟨rfl, by decide, by decide, by decide, by decide, by decide, by decide, by decide, by decide, by decide⟩,
      rfl, by decide, rfl, rfl, by decide, by decide, by decide⟩,
    ⟨decoding_end_inv, rfl, by decide, rfl, by decide⟩,
    ⟨inv_of_busy _ .estComp rfl (by decide) (by decide) (by decide) (by decide) rfl rfl, rfl, coreMoves_of_busy _ rfl rfl,
      by decide, rfl⟩⟩

theorem witness_EveryCommandCompletes : (decoding [] 3 3 7 0).Inv ∧ (decoding [] 3 3 7 0).busy = true :=
  ⟨decoding_end_inv, rfl⟩

/-- A read while BUSY, and two BUSY machines that differ on the host's side alone. -/
theorem witness_HostAccessesDoNotDisturbACommand :
    let s := decoding [] 3 3 7 0
    (s.busy = true ∧ (before s (.host (.readReg 0x10 32))).turns = [.host (.readReg 0x10 32)] ∧
      goesOn (step (before s (.host (.readReg 0x10 32)))) = true) ∧
    (s.coreView = (before { s with readData := 7, draws := 9 } .core).coreView ∧ goesOn (coreTurn s) = true) := by decide

theorem witness_StartedCommandLeavesItsFunction :
    let s := before (idle (header 0) 3) (.host (.writeReg 0x00 32 0xFFFFFFFD))
    s.phase = .idle ∧ s.turns = [.host (.writeReg 0x00 32 0xFFFFFFFD)] ∧ BitVec.getLsbD (0xFFFFFFFD : Reg) 8 = true ∧
      s.portsMeet = false := by decide

theorem witness_CommandOutputsFitTheirRegisters :
    ((0 : BitVec 2) = 0 ∨ (0 : BitVec 2) = 1) ∧ ((3 : BitVec 2) = 2 ∨ (3 : BitVec 2) = 3) := by decide

theorem witness_IdleCoreChangesNothing : (idle [] 0).phase = .idle ∧ (idle [] 0).turns = [] := by decide

/-- A match of "AAAA" behind a run of one byte, whose items fit exactly, or lack one byte; the run of "AB" that ends with
the input, the same; a byte that only joins the run; the end of the scan. -/
theorem witness_EncoderPassFollowsTheBestMatch :
    let a := text "AAAA"
    let b := text "AB"
    (atPass (encoding a 12 1 0 7) (encRegs a 1 0 7) ∧ atPass (encoding a 11 1 0 7) (encRegs a 1 0 7) ∧
      bestMatch (encoding a 12 1 0 7).src.read 4 1 = (3, 1) ∧
      ([.raw [0x41], .back 3 1] : List Item).flatMap Item.bytes = [0x20, 0x00, 0x41, 0x23, 0x00]) ∧
    (atPass (encoding b 11 1 0 7) (encRegs b 1 0 7) ∧ atPass (encoding b 10 1 0 7) (encRegs b 1 0 7) ∧
      bestMatch (encoding b 11 1 0 7).src.read 2 1 = (0, 0) ∧
      ([.raw [0x41, 0x42]] : List Item).flatMap Item.bytes = [0x40, 0x00, 0x41, 0x42]) ∧
    (atPass (encoding b 7 0 0 7) (encRegs b 0 0 7) ∧ bestMatch (encoding b 7 0 0 7).src.read 2 0 = (0, 0) ∧
      ¬ ((0 : Nat) + 1 - 0 = 2047 ∨ (0 : Nat) + 1 = 2)) ∧
    (atPass (encoding b 11 2 2 11) (encRegs b 2 2 11) ∧ (encRegs b 2 2 11).pos = (encRegs b 2 2 11).len) := by
  refine ⟨⟨?_, ?_, by decide, by decide⟩, ⟨?_, ?_, by decide, by decide⟩, ⟨?_, by decide, by decide⟩, ⟨?_, rfl⟩⟩ <;>
    exact atPass_of_inRange _ _ _ _ _ (by decide) (by decide) (by constructor <;> decide)

end Sys2Proof.Tests
end

section
/-! Every step keeps the invariant: what the invariant does not look at, what it asks in IDLE, and one lemma for each
agent of a step. -/

namespace Sys2Proof.Machine

/-! ## The host's side of the state -/

@[simp] theorem State.coreView_setTurns (s : State) (ts : List Turn) : (s.setTurns ts).coreView = s.coreView := rfl

@[simp] theorem State.coreView_setReadData (s : State) (v : Reg) : (s.setReadData v).coreView = s.coreView := rfl

@[simp] theorem State.coreView_drawReadData (s : State) (v : Reg) : (s.drawReadData v).coreView = s.coreView := rfl

/-- The invariant does not look at the host's side. -/
theorem State.inv_coreView (s : State) : s.coreView.Inv ↔ s.Inv :=
  ⟨fun h => ⟨h.src_wf, h.dst_wf, h.src_inPort, h.dst_inPort, h.busy_status, h.busy_ports, h.busy_work, h.decl_lt, h.mismatch⟩,
    fun h => ⟨h.src_wf, h.dst_wf, h.src_inPort, h.dst_inPort, h.busy_status, h.busy_ports, h.busy_work, h.decl_lt, h.mismatch⟩⟩

theorem State.Inv.of_coreView_eq {s t : State} (h : s.Inv) (e : t.coreView = s.coreView) : t.Inv :=
  t.inv_coreView.mp (e ▸ s.inv_coreView.mpr h)

theorem State.Inv.setTurns {s : State} (h : s.Inv) (ts : List Turn) : (s.setTurns ts).Inv := h.of_coreView_eq rfl

/-! ## IDLE and START -/

/-- In IDLE the invariant asks nothing of the working registers. -/
theorem State.inv_of_idle {t : State} (hp : t.phase = .idle) (hs : t.src.wf ∧ t.src.inPort) (hd : t.dst.wf ∧ t.dst.inPort)
    (hl : t.declLen.toNat ≤ Config.maxOrigLen)
    (hm : t.lenMismatch = true → t.result = .ok ∧ t.outLen.toNat < t.declLen.toNat) : t.Inv where
  src_wf := hs.1
  dst_wf := hd.1
  src_inPort := hs.2
  dst_inPort := hd.2
  busy_status hb := by simp [State.busy, hp] at hb
  busy_ports hb := by simp [State.busy, hp] at hb
  busy_work w hw := by simp [hp] at hw
  decl_lt := hl
  mismatch := hm

theorem op_eq_opEstDecomp (op : BitVec 2) (h0 : op ≠ opEncode) (h1 : op ≠ opDecode) (h2 : op ≠ opEstComp) :
    op = opEstDecomp := by
  revert op
  decide

/-- The command that CTRL.OP names begins in range. -/
theorem State.workOk_commandWork (s : State) : s.WorkOk (commandWork s.op) := by
  unfold commandWork
  split
  · assumption
  · split
    · assumption
    · split
      · assumption
      · exact op_eq_opEstDecomp _ ‹_› ‹_› ‹_›

/-- An accepted START keeps the invariant (40_commands.md R67). -/
theorem State.Inv.start {s : State} (h : s.Inv) (hm : s.portsMeet = false) (op : BitVec 2) (irqEn : Bool) :
    (s.start op irqEn (commandWork op)).Inv where
  src_wf := h.src_wf
  dst_wf := h.dst_wf
  src_inPort := h.src_inPort
  dst_inPort := h.dst_inPort
  busy_status _ := ⟨rfl, rfl, rfl⟩
  busy_ports _ := hm
  busy_work w hw := by
    obtain rfl : commandWork op = w := State.busy_inj rfl hw
    exact (s.start op irqEn (commandWork op)).workOk_commandWork
  decl_lt := h.decl_lt
  mismatch hb := absurd hb (by simp)

/-! ## Each agent keeps the invariant -/

/-- A host access keeps the invariant. -/
theorem hostTurn_keeps_inv {a : HostAccess} {s t : State} (hi : s.Inv) (h : hostTurn a s = .next t) : t.Inv := by
  have hs := And.intro hi.src_wf hi.src_inPort
  have hd := And.intro hi.dst_wf hi.dst_inPort
  have idle : ∀ u : State, u.phase = s.phase → s.busy = false → u.phase = .idle := fun u hu hb =>
    hu.trans (s.not_busy_iff.mp hb)
  rcases hostTurn_cases a s t h with ⟨v, rfl⟩ | ⟨-, v, rfl⟩ | rfl | ⟨hb, h⟩
  · exact hi.of_coreView_eq rfl
  · exact hi.of_coreView_eq rfl
  · exact hi
  · rcases h with ⟨_, v, -, -, -, -, hm, rfl⟩ | ⟨_, v, -, -, -, rfl⟩ | ⟨_, v, -, -, -, rfl⟩ | ⟨v, rfl⟩ | ⟨v, rfl⟩ |
      ⟨o, v, -, rfl⟩ | ⟨o, v, -, rfl⟩
    · exact hi.start hm _ _
    · exact State.inv_of_idle (idle _ rfl hb) hs hd hi.decl_lt hi.mismatch
    · exact State.inv_of_idle (idle _ rfl hb) hs hd hi.decl_lt hi.mismatch
    · exact State.inv_of_idle (idle _ rfl hb) hs hd hi.decl_lt hi.mismatch
    · exact State.inv_of_idle (idle _ rfl hb) hs hd hi.decl_lt hi.mismatch
    · exact State.inv_of_idle (idle _ rfl hb) ⟨Memory.write_wf _ _ _ hs.1, Memory.write_inPort _ _ _ hs.2 o.isLt⟩ hd
        hi.decl_lt hi.mismatch
    · exact State.inv_of_idle (idle _ rfl hb) hs ⟨Memory.write_wf _ _ _ hd.1, Memory.write_inPort _ _ _ hd.2 o.isLt⟩
        hi.decl_lt hi.mismatch

/-- The write range of a running command lies below DST_CAP (70_reset_and_hazards.md R117). -/
theorem State.writeRange_le (s : State) (hi : s.Inv) : s.writeRange ≤ s.dstCap.toNat := by
  unfold State.writeRange
  split
  · exact Nat.zero_le _
  · exact Nat.le_refl _
  · exact Nat.le_refl _
  · split
    · exact Nat.min_le_right _ _
    · exact Nat.zero_le _
  · rename_i d hp
    obtain ⟨-, hr⟩ := hi.busy_work _ hp
    exact hr.bound_eq ▸ Nat.min_le_right _ _
  · exact Nat.zero_le _
  · exact Nat.zero_le _

/-- A reset keeps the invariant, whatever bytes it draws. -/
theorem State.Inv.resetTurn {s : State} (hi : s.Inv) : s.resetTurn.Inv := by
  have hn : 0 + s.writeRange ≤ 2 ^ Config.portAw := by
    have := s.writeRange_le hi
    have := s.dstCap.isLt
    simp only [Config.portAw]
    omega
  exact State.inv_of_idle rfl ⟨hi.src_wf, hi.src_inPort⟩
    ⟨Memory.drawRange_wf _ _ _ _ hi.dst_wf, Memory.drawRange_inPort _ _ _ _ hi.dst_inPort hn⟩ (Nat.zero_le _)
    (fun h => absurd h (by simp [State.resetTurn]))

/-- What a completion reports satisfies the invariant: LEN_MISMATCH only for under-production (42_decoder.md R95). -/
theorem State.StepEnds.mismatch_short {s : State} {code : Result} {o d : Nat} {b : Bool} (h : s.StepEnds code o d b)
    (hb : b = true) : code = .ok ∧ o < d := by
  obtain ⟨ho, hc, hne⟩ := h.mismatch.mp hb
  exact ⟨hc, Nat.lt_of_le_of_ne (h.short ho hc) hne⟩

theorem State.StepEnds.outLen_toNat {s : State} {code : Result} {o d : Nat} {b : Bool} (h : s.StepEnds code o d b) :
    (BitVec.ofNat 32 o).toNat = o := by
  rw [BitVec.toNat_ofNat, Nat.mod_eq_of_lt h.out_lt]

theorem State.StepEnds.declLen_toNat {s : State} {code : Result} {o d : Nat} {b : Bool} (h : s.StepEnds code o d b) :
    (BitVec.ofNat 32 d).toNat = d := by
  rw [BitVec.toNat_ofNat, Nat.mod_eq_of_lt (Nat.lt_of_le_of_lt h.decl_lt (by decide))]

/-- Wherever a step of a running command leaves, the invariant holds. -/
theorem State.StepLeaves.inv {s t : State} (hi : s.Inv) (hb : s.busy = true) (h : s.StepLeaves t) : t.Inv := by
  obtain ⟨m, n, hw, ⟨w, rfl, hok, -⟩ | ⟨code, o, d, r, b, rfl, he, -⟩⟩ := h
  · exact {
      src_wf := hi.src_wf
      dst_wf := hw.wf
      src_inPort := hi.src_inPort
      dst_inPort := hw.inPort
      busy_status := fun _ => hi.busy_status hb
      busy_ports := fun _ => hi.busy_ports hb
      busy_work := fun v hv => by
        obtain rfl : w = v := State.busy_inj rfl hv
        exact hok
      decl_lt := hi.decl_lt
      mismatch := hi.mismatch }
  · refine State.inv_of_idle rfl ⟨hi.src_wf, hi.src_inPort⟩ ⟨hw.wf, hw.inPort⟩ ?_ fun hm => ?_
    · exact he.declLen_toNat.trans_le he.decl_lt
    · obtain ⟨hc, hlt⟩ := he.mismatch_short hm
      exact ⟨hc, by simpa only [State.finish, he.outLen_toNat, he.declLen_toNat] using hlt⟩

/-- The core's turn keeps the invariant. -/
theorem coreTurn_keeps_inv {s t : State} (hi : s.Inv) (h : coreTurn s = .next t) : t.Inv := by
  cases hb : s.busy with
  | false =>
    rw [coreTurn_idle s (s.not_busy_iff.mp hb)] at h
    injection h with h
    exact h ▸ hi
  | true =>
    obtain ⟨u, hu, hl⟩ := coreTurn_inv s hi hb
    rw [hu] at h
    injection h with h
    exact h ▸ hl.inv hi hb

/-- Settles O46, by whose turn the step is: each agent keeps the invariant. -/
theorem everyStepKeepsTheInvariant : Obligations.EveryStepKeepsTheInvariant := by
  intro s t hi h
  rcases step_cases s t h with ⟨ts, -, hc⟩ | ⟨ts, -, -, rfl⟩ | ⟨a, ts, -, ha⟩ | ⟨ts, -, rfl⟩
  · exact coreTurn_keeps_inv (hi.setTurns ts) hc
  · exact hi.setTurns ts
  · exact hostTurn_keeps_inv (hi.setTurns ts) ha
  · exact (hi.setTurns ts).resetTurn

end Sys2Proof.Machine
end

section
/-! The register interface: what a host's register access is as a step, and what each register reads and takes. -/

namespace Sys2Proof.Machine

/-! ## A register access as a step -/

theorem regAccessOk_iff (off : BitVec 5) (width : Nat) :
    regAccessOk off width = true ↔ width = 32 ∧ off.toNat % 4 = 0 := by
  simp [regAccessOk]

/-- A step in which the host is next is its access, with the turn used up. -/
theorem step_of_hostNext {s : State} {a : HostAccess} {ts : List Turn} (hts : s.turns = .host a :: ts) :
    step s = hostTurn a (s.setTurns ts) := by
  simp only [step, takeTurn, hts]

theorem step_host (s : State) (a : HostAccess) (ts : List Turn) :
    step { s with turns := .host a :: ts } = hostTurn a (s.setTurns ts) := step_of_hostNext rfl

theorem step_readReg (s : State) (ts : List Turn) (off : BitVec 5) (h : off.toNat % 4 = 0) :
    step { s with turns := .host (.readReg off 32) :: ts } = .next ((s.setTurns ts).readReg (regAt off)) := by
  rw [step_host, hostTurn, if_pos ((regAccessOk_iff off 32).mpr ⟨rfl, h⟩)]

theorem step_writeReg_idle (s : State) (ts : List Turn) (off : BitVec 5) (v : Reg) (hp : s.phase = .idle)
    (h : off.toNat % 4 = 0) :
    step { s with turns := .host (.writeReg off 32 v) :: ts } = writeReg (regAt off) v (s.setTurns ts) := by
  have hb : (s.setTurns ts).busy = false := s.not_busy_iff.mpr hp
  rw [step_host, hostTurn, if_pos ((regAccessOk_iff off 32).mpr ⟨rfl, h⟩), hb]
  rfl

theorem step_writeReg_busy (s : State) (ts : List Turn) (off : BitVec 5) (v : Reg) (hb : s.busy = true)
    (h : off.toNat % 4 = 0) :
    step { s with turns := .host (.writeReg off 32 v) :: ts } = .next (s.setTurns ts) := by
  have hb' : (s.setTurns ts).busy = true := hb
  rw [step_host, hostTurn, if_pos ((regAccessOk_iff off 32).mpr ⟨rfl, h⟩), if_pos hb', writeRegBusy_eq _ _ _ hb']

/-! ## What CTRL and STATUS read -/

/-- CTRL as a number (10_state.md R17 to R20). -/
theorem State.ctrlWord_eq (s : State) : s.ctrlWord = BitVec.ofNat 32 (s.op.toNat + 4 * s.irqEn.toNat) := by
  have : ∀ (op : BitVec 2) (b : Bool), op.setWidth 32 ||| flagBit b 2 = BitVec.ofNat 32 (op.toNat + 4 * b.toNat) := by
    decide
  exact this s.op s.irqEn

/-- STATUS as a number (10_state.md R21 to R25). -/
theorem State.statusWord_eq (s : State) :
    s.statusWord = BitVec.ofNat 32
      (s.busy.toNat + 2 * s.done.toNat + 4 * s.lenMismatch.toNat + 16 * s.result.code.toNat) := by
  have : ∀ (b d m : Bool) (c : BitVec 4),
      flagBit b 0 ||| flagBit d 1 ||| flagBit m 2 ||| (c.setWidth 32 <<< 4) =
        BitVec.ofNat 32 (b.toNat + 2 * d.toNat + 4 * m.toNat + 16 * c.toNat) := by
    decide
  exact this s.busy s.done s.lenMismatch s.result.code

/-- What a register shows in IDLE (10_state.md R15, R16). -/
def State.regValue (s : State) : RegName → Reg
  | .ctrl => s.ctrlWord
  | .status => s.statusWord
  | .srcLen => s.srcLen
  | .dstCap => s.dstCap
  | .outLen => s.outLen
  | .declLen => s.declLen
  | .rdPos => s.rdPos
  | .unmapped => 0

/-- The registers whose reads are draws while BUSY (10_state.md R32). -/
def RegName.isResult : RegName → Bool
  | .outLen => true
  | .declLen => true
  | .rdPos => true
  | _ => false

/-- A read draws for a result register of a BUSY core, and otherwise returns the register's value. -/
theorem State.readReg_eq (s : State) (r : RegName) :
    s.readReg r = if s.busy && r.isResult then s.drawReadData (Config.freeValue s.draws) else s.setReadData (s.regValue r) := by
  cases r <;> cases hb : s.busy <;> simp [State.readReg, RegName.isResult, State.regValue, hb]

/-- A register read that is no draw. -/
theorem step_readReg_value (s : State) (ts : List Turn) (off : BitVec 5) (h : off.toNat % 4 = 0)
    (hr : (s.busy && (regAt off).isResult) = false) :
    step { s with turns := .host (.readReg off 32) :: ts } =
      .next { s with turns := ts, readData := s.regValue (regAt off) } := by
  have hr' : ¬ ((s.setTurns ts).busy && (regAt off).isResult) = true := by rw [State.setTurns_busy, hr]; exact Bool.false_ne_true
  rw [step_readReg s ts off h, State.readReg_eq, if_neg hr']
  cases regAt off <;> rfl

/-- A register read that is a draw (10_state.md R32). -/
theorem step_readReg_draw (s : State) (ts : List Turn) (off : BitVec 5) (h : off.toNat % 4 = 0) (hb : s.busy = true)
    (hr : (regAt off).isResult = true) :
    step { s with turns := .host (.readReg off 32) :: ts } =
      .next { s with turns := ts, readData := Config.freeValue s.draws, draws := s.draws + 1 } := by
  have hr' : ((s.setTurns ts).busy && (regAt off).isResult) = true := by rw [State.setTurns_busy, hb, hr]; rfl
  rw [step_readReg s ts off h, State.readReg_eq, if_pos hr']
  rfl

/-! ## The statements -/

/-- Settles O37: no read in IDLE is a draw, and CTRL and STATUS are the numbers of their fields. -/
theorem registerReadsWhileIdle : Obligations.RegisterReadsWhileIdle := by
  intro s ts hp
  have hb : s.busy = false := s.not_busy_iff.mpr hp
  have value : ∀ off : BitVec 5, off.toNat % 4 = 0 →
      step { s with turns := .host (.readReg off 32) :: ts } =
        .next { s with turns := ts, readData := s.regValue (regAt off) } :=
    fun off h => step_readReg_value s ts off h (by rw [hb]; rfl)
  have hstatus : s.statusWord =
      BitVec.ofNat 32 (2 * s.done.toNat + 4 * s.lenMismatch.toNat + 16 * s.result.code.toNat) := by
    simp [s.statusWord_eq, hb]
  exact ⟨s.ctrlWord_eq ▸ value 0x00 rfl, hstatus ▸ value 0x04 rfl, value 0x08 rfl, value 0x0C rfl, value 0x10 rfl,
    value 0x14 rfl, value 0x18 rfl, value 0x1C rfl⟩

/-- Settles O38: only the three result registers are draws, and the invariant makes STATUS BUSY alone. -/
theorem registerReadsWhileBusy : Obligations.RegisterReadsWhileBusy := by
  intro s ts hb hi
  obtain ⟨hd, hm, hr⟩ := hi.busy_status hb
  have value : ∀ off : BitVec 5, off.toNat % 4 = 0 → (regAt off).isResult = false →
      step { s with turns := .host (.readReg off 32) :: ts } =
        .next { s with turns := ts, readData := s.regValue (regAt off) } :=
    fun off h hn => step_readReg_value s ts off h (by rw [hn, Bool.and_false])
  have draw := fun (off : BitVec 5) h => step_readReg_draw s ts off h hb
  have hstatus : s.statusWord = 0x1 := by simp [s.statusWord_eq, hb, hd, hm, hr, Result.code]
  exact ⟨s.ctrlWord_eq ▸ value 0x00 rfl rfl, hstatus ▸ value 0x04 rfl rfl, value 0x08 rfl rfl, value 0x0C rfl rfl,
    draw 0x10 rfl rfl, draw 0x14 rfl rfl, draw 0x18 rfl rfl, value 0x1C rfl rfl⟩

/-- Settles O39, register by register; STATUS by whether bit [1] of the value is set. -/
theorem registerWritesWhileIdle : Obligations.RegisterWritesWhileIdle := by
  intro s ts v hp
  have write := fun (off : BitVec 5) h => step_writeReg_idle s ts off v hp h
  refine ⟨(write 0x04 rfl).trans ?_, write 0x08 rfl, write 0x0C rfl, write 0x10 rfl, write 0x14 rfl, write 0x18 rfl,
    write 0x1C rfl⟩
  show Host.Outcome.next (if v.getLsbD 1 then (s.setTurns ts).clearDone else s.setTurns ts) = _
  cases v.getLsbD 1 <;> simp [State.clearDone, State.setTurns]

/-- Settles O40: the write is the host's turn used up and nothing else, whatever register its offset names. -/
theorem registerWritesWhileBusyAreIgnored : Obligations.RegisterWritesWhileBusyAreIgnored :=
  fun s ts off v hb h => step_writeReg_busy s ts off v hb h

/-- Settles O41: both accesses fail the one check of width and alignment, which no phase enters. -/
theorem malformedRegisterAccessIsRefused : Obligations.MalformedRegisterAccessIsRefused := by
  intro s ts off width v h
  have hok : ¬ regAccessOk off width = true := by
    rw [regAccessOk_iff]
    omega
  exact ⟨(step_host s _ ts).trans (if_neg hok), (step_host s _ ts).trans (if_neg hok)⟩

/-! ## Instructions -/

/-- A write to CTRL of a command word runs its instruction, in either phase. -/
theorem hostTurn_commandWord (s : State) (w : Reg) (i : Instr) (h : decode (.ctrl w) = .ok i) :
    hostTurn (.writeReg 0x00 32 w) s = exec i s := by
  have hidle : writeReg .ctrl w s = exec i s := by simp only [writeReg, writeCtrl, h]
  have hbusy : writeRegBusy .ctrl w s = exec i s := by simp only [writeRegBusy, h]
  show (if s.busy = true then writeRegBusy .ctrl w s else writeReg .ctrl w s) = exec i s
  rw [hidle, hbusy, ite_self]

/-- Settles O9: the step is the host's turn, and a command word at CTRL runs its instruction in either phase. -/
theorem stepRunsTheCommandWordWritten : Obligations.StepRunsTheCommandWordWritten := by
  intro s w i ts hts h
  rw [step_of_hostNext hts, hostTurn_commandWord _ w i h]
  rfl

/-- Settles O27: each token asks for the registers of a running DECODE. -/
theorem tokensFaultOutsideARunningDecode : Obligations.TokensFaultOutsideARunningDecode := by
  intro s n count jump h
  constructor
  · show execLit n s = _
    unfold execLit
    split
    · exact absurd ‹_› (h _)
    · rfl
  · show execBref count jump s = _
    unfold execBref
    split
    · exact absurd ‹_› (h _)
    · rfl

end Sys2Proof.Machine
end

section
/-! Everything a step can do to the flags, and what follows for the phase, DONE, LEN_MISMATCH and the interrupt. -/

namespace Sys2Proof.Machine

/-! ## What a step does to the flags -/

/-- The flags, the command fields and, while BUSY, the five length registers are as before. -/
structure State.FlagsKept (s t : State) : Prop where
  busy : t.busy = s.busy
  op : t.op = s.op
  irqEn : t.irqEn = s.irqEn
  done : t.done = s.done
  lengths : s.busy = true → t.srcLen = s.srcLen ∧ t.dstCap = s.dstCap ∧ t.outLen = s.outLen ∧ t.declLen = s.declLen ∧
    t.rdPos = s.rdPos

/-- A change of the host's side alone keeps the flags. -/
theorem State.FlagsKept.of_coreView_eq {s t : State} (e : t.coreView = s.coreView) : s.FlagsKept t where
  busy := (congrArg State.busy e :)
  op := (congrArg State.op e :)
  irqEn := (congrArg State.irqEn e :)
  done := (congrArg State.done e :)
  lengths _ := ⟨(congrArg State.srcLen e :), (congrArg State.dstCap e :), (congrArg State.outLen e :), (congrArg State.declLen e :),
    (congrArg State.rdPos e :)⟩

/-- Everything a step can do to the flags. -/
inductive State.FlagEffect (s t : State) : Prop where
  /-- The command goes on, the core waits, or the host's access changes no flag. -/
  | kept (h : s.FlagsKept t)
  /-- The running command completes (40_commands.md R69). -/
  | completed (ts : List Turn) (m : Memory) (code : Result) (o d r : Nat) (b : Bool) (hb : s.busy = true)
      (hc : s.CoreMoves ts) (h : t = ((s.setTurns ts).setDst m).finish code o d r b)
  /-- A START is accepted (40_commands.md R67). -/
  | started (v : Reg) (ts : List Turn) (hb : s.busy = false) (hts : s.turns = .host (.writeReg 0x00 32 v) :: ts)
      (hs : ctrlStart v = true)
      (h : t = (s.setTurns ts).start (ctrlOp v) (ctrlIrqEn v) (commandWork (ctrlOp v)))
  /-- CTRL is written without START (10_state.md R19). -/
  | selected (v : Reg) (ts : List Turn) (hb : s.busy = false) (hts : s.turns = .host (.writeReg 0x00 32 v) :: ts)
      (h : t = (s.setTurns ts).setCtrl (ctrlOp v) (ctrlIrqEn v))
  /-- DONE is cleared by W1C (10_state.md R22). -/
  | doneCleared (v : Reg) (ts : List Turn) (hb : s.busy = false) (hts : s.turns = .host (.writeReg 0x04 32 v) :: ts)
      (hv : statusClearsDone v = true) (h : t = (s.setTurns ts).clearDone)
  /-- The platform resets the block (70_reset_and_hazards.md R116, R117). -/
  | wasReset (ts : List Turn) (hts : s.turns = .reset :: ts) (h : t = (s.setTurns ts).resetTurn)

theorem regAt_eq_ctrl {off : BitVec 5} (h : regAt off = .ctrl) : off = 0x00 := by
  revert off
  decide

theorem regAt_eq_status {off : BitVec 5} (h : regAt off = .status) : off = 0x04 := by
  revert off
  decide

/-- What the core's turn does to the flags. -/
theorem coreTurn_flagEffect {s t : State} {ts : List Turn} (hc : s.CoreMoves ts) (h : coreTurn (s.setTurns ts) = .next t) :
    s.FlagEffect t := by
  cases hb : s.busy with
  | false =>
    rw [coreTurn_idle (s.setTurns ts) (s.not_busy_iff.mp hb)] at h
    injection h with h
    subst h
    exact .kept (.of_coreView_eq rfl)
  | true =>
    obtain ⟨m, ⟨w, e⟩ | ⟨code, o, d, r, b, e⟩⟩ := coreTurn_busy (s.setTurns ts) hb <;> rw [e] at h <;>
      injection h with h <;> subst h
    · exact .kept ⟨hb.symm, rfl, rfl, rfl, fun _ => ⟨rfl, rfl, rfl, rfl, rfl⟩⟩
    · exact .completed ts m code o d r b hb hc rfl

/-- What a host access does to the flags. -/
theorem hostTurn_flagEffect {s t : State} {a : HostAccess} {ts : List Turn} (hts : s.turns = .host a :: ts)
    (h : hostTurn a (s.setTurns ts) = .next t) : s.FlagEffect t := by
  rcases hostTurn_cases a (s.setTurns ts) t h with ⟨v, rfl⟩ | ⟨-, v, rfl⟩ | rfl | ⟨hb, h⟩
  · exact .kept (.of_coreView_eq rfl)
  · exact .kept (.of_coreView_eq rfl)
  · exact .kept (.of_coreView_eq rfl)
  · have hb : s.busy = false := hb
    rcases h with ⟨off, v, rfl, -, hr, hs, -, rfl⟩ | ⟨off, v, rfl, hr, -, rfl⟩ | ⟨off, v, rfl, hr, hv, rfl⟩ | ⟨v, rfl⟩ |
      ⟨v, rfl⟩ | ⟨o, v, -, rfl⟩ | ⟨o, v, -, rfl⟩
    · exact .started v ts hb (regAt_eq_ctrl hr ▸ hts) hs rfl
    · exact .selected v ts hb (regAt_eq_ctrl hr ▸ hts) rfl
    · exact .doneCleared v ts hb (regAt_eq_status hr ▸ hts) hv rfl
    all_goals exact .kept ⟨rfl, rfl, rfl, rfl, fun hb' => absurd (hb.symm.trans hb') Bool.false_ne_true⟩

/-- Every step has one of the effects above. -/
theorem step_flagEffect {s t : State} (h : step s = .next t) : s.FlagEffect t := by
  rcases step_cases s t h with ⟨ts, hm, hc⟩ | ⟨ts, -, -, rfl⟩ | ⟨a, ts, hts, ha⟩ | ⟨ts, hts, rfl⟩
  · exact coreTurn_flagEffect hm hc
  · exact .kept (.of_coreView_eq rfl)
  · exact hostTurn_flagEffect hts ha
  · exact .wasReset ts hts rfl

/-- A step from BUSY to IDLE is a completion or a reset. -/
theorem step_leaves_busy {s t : State} (h : step s = .next t) (hb : s.busy = true) (ht : t.busy = false) :
    (∃ ts m code o d r b, s.CoreMoves ts ∧ t = ((s.setTurns ts).setDst m).finish code o d r b) ∨
    (∃ ts, s.turns = .reset :: ts ∧ t = (s.setTurns ts).resetTurn) := by
  cases step_flagEffect h with
  | kept hk => rw [hk.busy, hb] at ht; cases ht
  | completed ts m code o d r b _ hc h => exact .inl ⟨ts, m, code, o, d, r, b, hc, h⟩
  | started v ts hi => rw [hb] at hi; cases hi
  | selected v ts hi => rw [hb] at hi; cases hi
  | doneCleared v ts hi => rw [hb] at hi; cases hi
  | wasReset ts hts h => exact .inr ⟨ts, hts, h⟩

/-- A step from IDLE to BUSY is an accepted START. -/
theorem step_enters_busy {s t : State} (h : step s = .next t) (hb : s.busy = false) (ht : t.busy = true) :
    ∃ v ts, s.turns = .host (.writeReg 0x00 32 v) :: ts ∧ ctrlStart v = true ∧
      t = (s.setTurns ts).start (ctrlOp v) (ctrlIrqEn v) (commandWork (ctrlOp v)) := by
  cases step_flagEffect h with
  | kept hk => rw [hk.busy, hb] at ht; cases ht
  | completed ts m code o d r b hc => rw [hb] at hc; cases hc
  | started v ts _ hts hs h => exact ⟨v, ts, hts, hs, h⟩
  | selected v ts _ _ h => subst h; exact absurd ht (by simp [hb])
  | doneCleared v ts _ _ _ h => subst h; exact absurd ht (by simp [hb])
  | wasReset ts _ h => subst h; cases ht

/-- A step that stays BUSY keeps the flags. -/
theorem step_stays_busy {s t : State} (h : step s = .next t) (hb : s.busy = true) (ht : t.busy = true) : s.FlagsKept t := by
  cases step_flagEffect h with
  | kept hk => exact hk
  | completed ts m code o d r b _ _ h => subst h; cases ht
  | started v ts hi => rw [hb] at hi; cases hi
  | selected v ts hi => rw [hb] at hi; cases hi
  | doneCleared v ts hi => rw [hb] at hi; cases hi
  | wasReset ts _ h => subst h; cases ht

/-- A step from BUSY to IDLE that is no reset sets DONE and keeps IRQ_EN (40_commands.md R69). -/
theorem step_leaves_busy_done {s t : State} (h : step s = .next t) (hb : s.busy = true) (ht : t.busy = false) :
    (∃ ts, s.turns = .reset :: ts) ∨ (t.done = true ∧ t.irqEn = s.irqEn) := by
  rcases step_leaves_busy h hb ht with ⟨ts, m, code, o, d, r, b, -, rfl⟩ | ⟨ts, hts, -⟩
  · exact .inr ⟨rfl, rfl⟩
  · exact .inl ⟨ts, hts⟩

/-- A completion in a state of the invariant, with everything it may report. -/
theorem step_completes {s t : State} (hi : s.Inv) (h : step s = .next t) (hb : s.busy = true) (ht : t.busy = false)
    (hd : t.done = true) :
    ∃ ts m code o d r b, s.CoreMoves ts ∧ t = ((s.setTurns ts).setDst m).finish code o d r b ∧
      (s.setTurns ts).StepEnds code o d b := by
  rcases step_leaves_busy h hb ht with ⟨ts, -, -, -, -, -, -, hc, -⟩ | ⟨ts, -, rfl⟩
  · obtain ⟨u, hu, m, n, -, hl⟩ := coreTurn_inv (s.setTurns ts) (hi.setTurns ts) hb
    obtain rfl : u = t := by
      rw [step_of_coreMoves s ts hc, hu] at h
      injection h
    rcases hl with ⟨w, rfl, -⟩ | ⟨code, o, d, r, b, e, he, -⟩
    · cases ht
    · exact ⟨ts, m, code, o, d, r, b, hc, e, he⟩
  · cases hd

/-! ## The statements -/

/-- Settles O48: the three ways a step can take the phase, each with its own lemma. -/
theorem phaseChangesOnlyAsTheSpecSays : Obligations.PhaseChangesOnlyAsTheSpecSays := by
  intro s t h
  refine ⟨fun hb ht => ?_, fun hb ht => ?_, fun hb ht => ?_⟩
  · obtain ⟨v, ts, hts, hs, -⟩ := step_enters_busy h hb ht
    exact ⟨v, ts, hts, hs⟩
  · exact (step_leaves_busy_done h hb ht).imp_right And.left
  · have hk := step_stays_busy h hb ht
    exact ⟨hk.op, hk.irqEn, hk.lengths hb⟩

/-- DONE is set only by a completion. -/
theorem step_sets_done {s t : State} (h : step s = .next t) (hs : s.done = false) (ht : t.done = true) :
    s.busy = true ∧ t.busy = false ∧ t.irqEn = s.irqEn := by
  cases step_flagEffect h with
  | kept hk => rw [hk.done, hs] at ht; cases ht
  | completed ts m code o d r b hb _ h => exact ⟨hb, by subst h; rfl, by subst h; rfl⟩
  | started v ts _ _ _ h => subst h; cases ht
  | selected v ts _ _ h => subst h; exact absurd ht (by simp [hs])
  | doneCleared v ts _ _ _ h => subst h; cases ht
  | wasReset ts _ h => subst h; cases ht

/-- Settles O49: the two directions by the effect of the step. -/
theorem doneChangesOnlyAsTheSpecSays : Obligations.DoneChangesOnlyAsTheSpecSays := by
  intro s t h
  refine ⟨fun hs ht => ?_, fun hs ht => ?_, fun hb ht => (step_leaves_busy_done h hb ht).imp_right And.left⟩
  · obtain ⟨hb, hb', -⟩ := step_sets_done h hs ht
    exact ⟨hb, hb'⟩
  · cases step_flagEffect h with
    | kept hk => rw [hk.done, hs] at ht; cases ht
    | completed ts m code o d r b _ _ h => subst h; cases ht
    | started v ts hb _ _ h => exact .inl ⟨hb, by subst h; rfl⟩
    | selected v ts _ _ h => subst h; exact absurd ht (by simp [hs])
    | doneCleared v ts hb hts hv _ => exact .inr (.inr ⟨v, ts, hts, hv, hb⟩)
    | wasReset ts hts _ => exact .inr (.inl ⟨ts, hts⟩)

/-- Settles O50: a completion reports the mismatch of its two lengths, which fit their registers; START clears it. -/
theorem lenMismatchIsDecodeUnderProduction : Obligations.LenMismatchIsDecodeUnderProduction := by
  intro s t hi h
  refine ⟨fun hb ht hd => ?_, fun hb ht => ?_⟩
  · obtain ⟨ts, m, code, o, d, r, b, -, rfl, he⟩ := step_completes hi h hb ht hd
    have hne : BitVec.ofNat 32 o ≠ BitVec.ofNat 32 d ↔ o ≠ d := by
      rw [Ne, ← BitVec.toNat_inj, he.outLen_toNat, he.declLen_toNat]
    show b = true ↔ s.op = opDecode ∧ code = .ok ∧ BitVec.ofNat 32 o ≠ BitVec.ofNat 32 d
    rw [hne]
    exact he.mismatch
  · obtain ⟨v, ts, -, -, rfl⟩ := step_enters_busy h hb ht
    rfl

theorem State.irq_eq_true (s : State) : s.irq = true ↔ s.done = true ∧ s.irqEn = true := by
  simp [State.irq]

/-- IRQ_EN is set only by a write to CTRL. -/
theorem step_sets_irqEn {s t : State} (h : step s = .next t) (hs : s.irqEn = false) (ht : t.irqEn = true) :
    ∃ v ts, s.turns = .host (.writeReg 0x00 32 v) :: ts ∧ ctrlIrqEn v = true := by
  cases step_flagEffect h with
  | kept hk => rw [hk.irqEn, hs] at ht; cases ht
  | completed ts m code o d r b _ _ h => subst h; exact absurd ht (by simp [hs])
  | started v ts _ hts _ h => exact ⟨v, ts, hts, by subst h; exact ht⟩
  | selected v ts _ hts h => exact ⟨v, ts, hts, by subst h; exact ht⟩
  | doneCleared v ts _ _ _ h => subst h; exact absurd ht (by simp [hs])
  | wasReset ts _ h => subst h; cases ht

/-- Settles O52: a rise sets DONE, or sets IRQ_EN while DONE is 1 already. -/
theorem interruptFollowsDoneAndEnable : Obligations.InterruptFollowsDoneAndEnable := by
  intro s t h
  refine ⟨s.irq_eq_true, fun hs ht => ?_, fun hb ht hq => ?_⟩
  · obtain ⟨htd, htq⟩ := t.irq_eq_true.mp ht
    cases hd : s.done with
    | false =>
      obtain ⟨hb, hb', hq⟩ := step_sets_done h hd htd
      exact .inl ⟨hb, hb', hq ▸ htq⟩
    | true =>
      have hq : s.irqEn = false := by simpa [State.irq, hd] using hs
      obtain ⟨v, ts, hts, hv⟩ := step_sets_irqEn h hq htq
      exact .inr ⟨rfl, hq, v, ts, hts, hv⟩
  · exact (step_leaves_busy_done h hb ht).imp_right fun ⟨htd, htq⟩ => t.irq_eq_true.mpr ⟨htd, htq.trans hq⟩

end Sys2Proof.Machine
end

section
/-! The core's turn and the host's side of the state: neither looks at what the other changes while a command runs
(10_state.md R31, 40_commands.md R71). -/

namespace Sys2Proof.Machine

/-! ## The core's turn on the core's view -/

@[simp] theorem State.coreView_phase (s : State) : s.coreView.phase = s.phase := rfl

@[simp] theorem State.coreView_dstCap (s : State) : s.coreView.dstCap = s.dstCap := rfl

@[simp] theorem State.coreView_dst (s : State) : s.coreView.dst = s.dst := rfl

theorem State.encodeEmit_coreView (s : State) (bs : List Byte) (e : EncRegs) :
    s.coreView.encodeEmit bs e = (s.encodeEmit bs e).coreView := by
  simp only [State.encodeEmit, State.coreView_dstCap, State.coreView_dst]
  split <;> rfl

theorem State.encodeBegin_coreView (s : State) : s.coreView.encodeBegin = s.encodeBegin.coreView := by
  unfold State.encodeBegin
  rw [apply_ite State.coreView, ← State.encodeEmit_coreView]
  rfl

theorem State.encodeNext_coreView (s : State) (e : EncRegs) : s.coreView.encodeNext e = (s.encodeNext e).coreView := by
  unfold State.encodeNext
  rw [apply_ite State.coreView, ← State.encodeEmit_coreView]
  rfl

theorem State.decodeBegin_coreView (s : State) : s.coreView.decodeBegin = s.decodeBegin.coreView := by
  unfold State.decodeBegin
  rw [apply_ite State.coreView]
  rfl

theorem State.estimateComp_coreView (s : State) : s.coreView.estimateComp = s.estimateComp.coreView := by
  unfold State.estimateComp
  rw [apply_ite State.coreView]
  rfl

theorem State.estimateDecomp_coreView (s : State) : s.coreView.estimateDecomp = s.estimateDecomp.coreView := by
  unfold State.estimateDecomp
  rw [apply_ite State.coreView]
  rfl

theorem State.literal_coreView (s : State) (d : DecRegs) (n : Nat) : s.coreView.literal d n = (s.literal d n).coreView := by
  unfold State.literal
  rw [apply_ite State.coreView, apply_ite State.coreView]
  rfl

theorem State.backRef_coreView (s : State) (d : DecRegs) (count jump : Nat) :
    s.coreView.backRef d count jump = (s.backRef d count jump).coreView := by
  unfold State.backRef
  rw [apply_ite State.coreView, apply_ite State.coreView]
  rfl

/-- A token executed by a running DECODE: literal or back-reference. -/
theorem exec_decodeToken_coreView (s : State) (d : DecRegs) (tok : Half) :
    ∃ t, exec (decodeToken tok) (s.setWork (.decoding d)) = .next t ∧
      exec (decodeToken tok) (s.coreView.setWork (.decoding d)) = .next t.coreView := by
  rcases decodeToken_cases tok with ⟨-, e⟩ | ⟨-, e⟩ <;> rw [e]
  · exact ⟨_, rfl, congrArg _ ((s.setWork (.decoding d)).literal_coreView d _)⟩
  · exact ⟨_, rfl, congrArg _ ((s.setWork (.decoding d)).backRef_coreView d _ _)⟩

theorem tokenTurn_coreView (s : State) (d : DecRegs) :
    ∃ t, tokenTurn s d = .next t ∧ tokenTurn s.coreView d = .next t.coreView := by
  unfold tokenTurn
  split
  · split
    · exact ⟨_, rfl, rfl⟩
    · exact exec_decodeToken_coreView s _ _
  · exact ⟨_, rfl, rfl⟩

/-- What the core's turn leaves on the core's side is what it makes of the core's view alone. -/
theorem coreTurn_coreView (s : State) : ∃ t, coreTurn s = .next t ∧ coreTurn s.coreView = .next t.coreView := by
  unfold coreTurn
  rw [State.coreView_phase]
  cases s.phase with
  | idle => exact ⟨s, rfl, rfl⟩
  | busy w =>
    cases w with
    | encodeStart => exact ⟨_, rfl, congrArg _ s.encodeBegin_coreView⟩
    | encoding e => exact ⟨_, rfl, congrArg _ (s.encodeNext_coreView e)⟩
    | decodeStart => exact ⟨_, rfl, congrArg _ s.decodeBegin_coreView⟩
    | decoding d => exact tokenTurn_coreView s d
    | estComp => exact ⟨_, rfl, congrArg _ s.estimateComp_coreView⟩
    | estDecomp => exact ⟨_, rfl, congrArg _ s.estimateDecomp_coreView⟩

/-! ## Host accesses while BUSY -/

/-- While BUSY a host access changes the host's side alone, and no turn (10_state.md R31). -/
theorem hostTurn_busy {a : HostAccess} {s t : State} (hb : s.busy = true) (h : hostTurn a s = .next t) :
    t.coreView = s.coreView ∧ t.turns = s.turns := by
  rcases hostTurn_cases a s t h with ⟨v, rfl⟩ | ⟨-, v, rfl⟩ | rfl | ⟨hi, -⟩
  · exact ⟨rfl, rfl⟩
  · exact ⟨rfl, rfl⟩
  · exact ⟨rfl, rfl⟩
  · rw [hb] at hi
    cases hi

/-- Settles O56: the access leaves the core's view, and the core's turn is a function of that view. -/
theorem hostAccessesDoNotDisturbACommand : Obligations.HostAccessesDoNotDisturbACommand := by
  refine ⟨fun s t a ts hb hts h => ?_, fun s s' t _ hv h => ?_⟩
  · exact hostTurn_busy (s := s.setTurns ts) hb (step_of_hostNext hts ▸ h)
  · obtain ⟨u, hu, huv⟩ := coreTurn_coreView s
    obtain ⟨u', hu', huv'⟩ := coreTurn_coreView s'
    have hut : u = t := by rw [hu] at h; injection h
    refine ⟨u', hu', ?_⟩
    rw [hv, huv'] at huv
    injection huv with huv
    exact hut ▸ huv

end Sys2Proof.Machine
end

section
/-! The two buffers: what the host's accesses do to them, who writes SRC, and what a step of a command writes to DST
(20_memory.md R40, R44, R45). -/

namespace Sys2Proof.Machine

/-! ## The host's accesses -/

theorem step_writeSrc_idle (s : State) (ts : List Turn) (a : BitVec 32) (v : Byte) (hb : s.busy = false) :
    step { s with turns := .host (.writeSrc a v) :: ts } = .next ((s.setTurns ts).setSrc (s.src.write a.toNat v)) := by
  rw [step_host, hostTurn, State.setTurns_busy, hb]
  rfl

theorem step_writeDst_idle (s : State) (ts : List Turn) (a : BitVec 32) (v : Byte) (hb : s.busy = false) :
    step { s with turns := .host (.writeDst a v) :: ts } = .next ((s.setTurns ts).setDst (s.dst.write a.toNat v)) := by
  rw [step_host, hostTurn, State.setTurns_busy, hb]
  rfl

theorem step_writeSrc_busy (s : State) (ts : List Turn) (a : BitVec 32) (v : Byte) (hb : s.busy = true) :
    step { s with turns := .host (.writeSrc a v) :: ts } = .refused .bufferWriteWhileBusy :=
  (step_host s _ ts).trans (if_pos hb)

theorem step_writeDst_busy (s : State) (ts : List Turn) (a : BitVec 32) (v : Byte) (hb : s.busy = true) :
    step { s with turns := .host (.writeDst a v) :: ts } = .refused .bufferWriteWhileBusy :=
  (step_host s _ ts).trans (if_pos hb)

theorem step_readDst_idle (s : State) (ts : List Turn) (a : BitVec 32) (hb : s.busy = false) :
    step { s with turns := .host (.readDst a) :: ts } =
      .next ((s.setTurns ts).setReadData ((s.dst.read a.toNat).setWidth 32)) := by
  rw [step_host, hostTurn, State.setTurns_busy, hb]
  rfl

theorem step_readDst_busy (s : State) (ts : List Turn) (a : BitVec 32) (hb : s.busy = true) :
    step { s with turns := .host (.readDst a) :: ts } =
      .next ((s.setTurns ts).drawReadData ((Config.freeByte s.draws).setWidth 32)) :=
  (step_host s _ ts).trans (if_pos hb)

/-- A byte write changes the byte written and no other. -/
theorem Memory.write_changes_one (m : Memory) (a : Nat) (v : Byte) :
    (m.write a v).read a = v ∧ ∀ b, b ≠ a → (m.write a v).read b = m.read b :=
  ⟨by rw [Memory.read_write, if_pos rfl], fun b h => by rw [Memory.read_write, if_neg h]⟩

/-- Settles O42: each access is its step, and a write is one byte write of one buffer. -/
theorem hostBufferAccesses : Obligations.HostBufferAccesses := by
  intro s ts a v
  constructor
  · intro hp
    have hb : s.busy = false := s.not_busy_iff.mpr hp
    exact ⟨⟨_, step_writeSrc_idle s ts a v hb, rfl, s.src.write_changes_one a.toNat v⟩,
      ⟨_, step_writeDst_idle s ts a v hb, rfl, s.dst.write_changes_one a.toNat v⟩, step_readDst_idle s ts a hb⟩
  · intro hb
    exact ⟨step_writeSrc_busy s ts a v hb, step_writeDst_busy s ts a v hb, _, step_readDst_busy s ts a hb⟩

/-! ## SRC and the parameters -/

/-- The core's turn leaves the parameters and SRC as they were (20_memory.md R44). -/
theorem coreTurn_keeps_src {s t : State} (h : coreTurn s = .next t) : t.params = s.params ∧ t.src = s.src := by
  cases hb : s.busy with
  | false =>
    rw [coreTurn_idle s (s.not_busy_iff.mp hb)] at h
    injection h with h
    subst h
    exact ⟨rfl, rfl⟩
  | true =>
    obtain ⟨m, ⟨w, e⟩ | ⟨code, o, d, r, b, e⟩⟩ := coreTurn_busy s hb <;> rw [e] at h <;> injection h with h <;> subst h
    · exact ⟨rfl, rfl⟩
    · exact ⟨rfl, rfl⟩

/-- A host access leaves the parameters as they were, and SRC unless it is a write to SRC in IDLE (20_memory.md R40). -/
theorem hostTurn_keeps_src {a : HostAccess} {s t : State} (h : hostTurn a s = .next t) :
    t.params = s.params ∧ (t.src = s.src ∨ (s.busy = false ∧ ∃ o v, a = .writeSrc o v)) := by
  rcases hostTurn_cases a s t h with ⟨v, rfl⟩ | ⟨-, v, rfl⟩ | rfl | ⟨hb, h⟩
  · exact ⟨rfl, .inl rfl⟩
  · exact ⟨rfl, .inl rfl⟩
  · exact ⟨rfl, .inl rfl⟩
  · rcases h with ⟨_, v, -, -, -, -, -, rfl⟩ | ⟨_, v, -, -, -, rfl⟩ | ⟨_, v, -, -, -, rfl⟩ | ⟨v, rfl⟩ | ⟨v, rfl⟩ |
      ⟨o, v, rfl, rfl⟩ | ⟨o, v, -, rfl⟩
    · exact ⟨rfl, .inl rfl⟩
    · exact ⟨rfl, .inl rfl⟩
    · exact ⟨rfl, .inl rfl⟩
    · exact ⟨rfl, .inl rfl⟩
    · exact ⟨rfl, .inl rfl⟩
    · exact ⟨rfl, .inr ⟨hb, o, v, rfl⟩⟩
    · exact ⟨rfl, .inl rfl⟩

/-- Settles O53, by whose turn the step is: only a host access can write SRC. -/
theorem onlyTheHostWritesSrc : Obligations.OnlyTheHostWritesSrc := by
  intro s t h
  rcases step_cases s t h with ⟨ts, -, hc⟩ | ⟨ts, -, -, rfl⟩ | ⟨a, ts, hts, ha⟩ | ⟨ts, -, rfl⟩
  · obtain ⟨hp, hs⟩ := coreTurn_keeps_src hc
    exact ⟨hp, .inl hs⟩
  · exact ⟨rfl, .inl rfl⟩
  · obtain ⟨hp, hs | ⟨hb, o, v, rfl⟩⟩ := hostTurn_keeps_src ha
    · exact ⟨hp, .inl hs⟩
    · exact ⟨hp, .inr ⟨hb, o, v, ts, hts⟩⟩
  · exact ⟨rfl, .inl rfl⟩

/-! ## DST -/

/-- How many bytes of DST the command has written when a step of it has left `t`. -/
def State.writtenAfter (t : State) : Nat := if t.busy then t.written else t.outLen.toNat

/-- What a step of a command may write, with the count of an ENCODE or a DECODE read off the state it leaves. -/
theorem State.StepLeaves.writes {s t : State} (h : s.StepLeaves t) :
    ∃ n, s.StepWrites t.dst n ∧ (s.op = opEncode ∨ s.op = opDecode → t.writtenAfter = n) := by
  obtain ⟨m, n, hw, ⟨w, rfl, -, hn⟩ | ⟨code, o, d, r, b, rfl, he, hn⟩⟩ := h
  · exact ⟨n, hw, fun _ => hn⟩
  · exact ⟨n, hw, fun ho => he.outLen_toNat.trans (hn ho)⟩

/-- A step in which the core moves in a running command leaves as the command's step does. -/
theorem step_leaves {s t : State} {ts : List Turn} (hi : s.Inv) (hb : s.busy = true) (hc : s.CoreMoves ts)
    (h : step s = .next t) : (s.setTurns ts).StepLeaves t := by
  obtain ⟨u, hu, hl⟩ := coreTurn_inv (s.setTurns ts) (hi.setTurns ts) hb
  rw [step_of_coreMoves s ts hc, hu] at h
  injection h with h
  exact h ▸ hl

/-- Settles O54: the bytes a step may change lie from the cursor before it to the cursor after it, and that cursor is below
the capacity and the bound. -/
theorem commandsWriteDstOnceBelowCapacity : Obligations.CommandsWriteDstOnceBelowCapacity := by
  intro s t ts hi hb hc h
  obtain ⟨n, hw, hn⟩ := (step_leaves hi hb hc h).writes
  refine ⟨fun a ha => hw.outside a (.inr (Nat.le_trans hw.le_cap ha)), fun ho => ?_,
    fun d hd a ha => hw.outside a (.inr (Nat.le_trans (hw.le_bound d hd) ha)), hw.estimating⟩
  have hn : (if t.busy then t.written else t.outLen.toNat) = n := hn ho
  rw [hn]
  exact ⟨hw.le, hw.le_cap, hw.outside⟩

end Sys2Proof.Machine
end

section
/-! The outputs of the command functions, and DECODE from its START to its completion (40_commands.md R66, R71). -/

namespace Sys2Proof.Machine

/-! ## How far the outputs reach -/

/-- Every value a command reports fits its register, for a container of `len` bytes (00_scope.md R9, 10_state.md R29, R30). -/
structure Outputs.Fits (o : Outputs) (len : Nat) : Prop where
  outLen_lt : o.outLen < 2 ^ 32
  declLen_le : o.declLen ≤ Config.maxOrigLen
  rdPos_le : o.rdPos ≤ len

theorem Outputs.nothing_fits (code : Result) (len : Nat) : (Outputs.nothing code).Fits len :=
  ⟨Nat.two_pow_pos 32, Nat.zero_le _, Nat.zero_le _⟩

/-- ENCODE writes OUT_LEN bytes, at most the capacity (41_encoder.md R83). -/
theorem encodeOutputs_length (magic : Vector Byte 5) (src : Nat → Byte) (len cap : Nat) :
    (encodeOutputs magic src len cap).written.length = (encodeOutputs magic src len cap).outLen ∧
      (encodeOutputs magic src len cap).outLen ≤ cap := by
  unfold encodeOutputs
  split
  · exact ⟨rfl, Nat.zero_le _⟩
  · exact ⟨by rw [List.length_take, Nat.min_comm], Nat.min_le_right _ _⟩

theorem encodeOutputs_fits (magic : Vector Byte 5) (src : Nat → Byte) (len cap : Nat) (hcap : cap < 2 ^ 32) :
    (encodeOutputs magic src len cap).Fits len := by
  have hout := (encodeOutputs_length magic src len cap).2
  refine ⟨Nat.lt_of_le_of_lt hout hcap, ?_, ?_⟩ <;> unfold encodeOutputs <;> split
  · exact Nat.zero_le _
  · exact Nat.not_lt.mp ‹_›
  · exact Nat.zero_le _
  · exact Nat.zero_le _

/-- DECODE's OUT_LEN is at most the capacity (42_decoder.md R88). -/
theorem decodeOutputs_outLen_le (magic : Vector Byte 5) (src : Nat → Byte) (len cap : Nat) :
    (decodeOutputs magic src len cap).outLen ≤ cap := by
  unfold decodeOutputs
  split
  · exact Nat.le_trans (decodeItems_out_le src len _ len Config.hdrLen [] (Nat.zero_le _)) (Nat.min_le_right _ _)
  · exact Nat.zero_le _

theorem decodeOutputs_fits (magic : Vector Byte 5) (src : Nat → Byte) (len cap : Nat) :
    (decodeOutputs magic src len cap).Fits len := by
  have hout := (decodeOutputs_length magic src len cap).2
  refine ⟨by omega, ?_, ?_⟩ <;> unfold decodeOutputs <;> split
  · exact Nat.le_of_lt_succ (declaredLen_lt src)
  · exact Nat.zero_le _
  · rename_i hh
    exact decodeItems_rdPos_le src len _ len Config.hdrLen [] ((headerOk_iff magic src len).mp hh).1
  · exact Nat.zero_le _

theorem estCompOutputs_written (len : Nat) : (estCompOutputs len).written = [] := by
  unfold estCompOutputs
  split <;> rfl

theorem estCompOutputs_fits (len : Nat) : (estCompOutputs len).Fits len := by
  unfold estCompOutputs
  split
  · exact Outputs.nothing_fits _ _
  · rename_i hl
    have hl := Nat.not_lt.mp hl
    refine ⟨?_, hl, Nat.zero_le _⟩
    simp only [Config.maxOrigLen] at hl
    simp only [compressedEstimate]
    omega

theorem estDecompOutputs_written (magic : Vector Byte 5) (src : Nat → Byte) (len : Nat) :
    (estDecompOutputs magic src len).written = [] := by
  unfold estDecompOutputs
  split <;> rfl

theorem estDecompOutputs_fits (magic : Vector Byte 5) (src : Nat → Byte) (len : Nat) :
    (estDecompOutputs magic src len).Fits len := by
  have hd := declaredLen_lt src
  unfold estDecompOutputs
  split
  · exact ⟨Nat.lt_trans hd (by decide), Nat.le_of_lt_succ hd, Nat.zero_le _⟩
  · exact Outputs.nothing_fits _ _

/-- Settles O58, command by command. -/
theorem commandOutputsFitTheirRegisters : Obligations.CommandOutputsFitTheirRegisters := by
  intro s op
  have fits : ∀ o : Outputs, o.Fits s.srcLen.toNat → o.outLen < 2 ^ 32 ∧ o.declLen ≤ 65535 ∧ o.rdPos ≤ s.srcLen.toNat :=
    fun o h => ⟨h.outLen_lt, h.declLen_le, h.rdPos_le⟩
  have hop : op = opEncode ∨ op = opDecode ∨ op = opEstComp ∨ op = opEstDecomp := by
    revert op
    decide
  rcases hop with rfl | rfl | rfl | rfl
  · exact ⟨fun _ => encodeOutputs_length _ _ _ _, fun h => absurd h (by decide),
      fits _ (encodeOutputs_fits _ _ _ _ s.dstCap.isLt)⟩
  · exact ⟨fun _ => ⟨(decodeOutputs_length _ _ _ _).1, decodeOutputs_outLen_le _ _ _ _⟩, fun h => absurd h (by decide),
      fits _ (decodeOutputs_fits _ _ _ _)⟩
  · exact ⟨fun h => absurd h (by decide), fun _ => estCompOutputs_written _, fits _ (estCompOutputs_fits _)⟩
  · exact ⟨fun h => absurd h (by decide), fun _ => estDecompOutputs_written _ _ _, fits _ (estDecompOutputs_fits _ _ _)⟩

/-! ## DECODE from START to completion -/

theorem exec_decode_idle (s : State) (irqEn : Bool) (hp : s.phase = .idle) (hm : s.portsMeet = false) :
    exec (.decode irqEn) s = .next (s.start opDecode irqEn .decodeStart) :=
  startCommand_idle opDecode irqEn .decodeStart s hp hm

/-- A started DECODE comes to the outputs of its function: the header check, then the token loop from an empty output
(42_decoder.md R86, R87). -/
theorem decodeStart_runsTo (s : State) (irqEn : Bool) :
    (s.start opDecode irqEn .decodeStart).RunsTo (s.commandDone opDecode irqEn
      (decodeOutputs s.params.magic s.src.read s.srcLen.toNat s.dstCap.toNat)) := by
  have hc : coreTurn (s.start opDecode irqEn .decodeStart) = .next (s.start opDecode irqEn .decodeStart).decodeBegin := rfl
  have hh : (s.start opDecode irqEn .decodeStart).headerOk = headerOk s.params.magic s.src.read s.srcLen.toNat := rfl
  unfold decodeOutputs
  rw [State.decodeBegin, hh] at hc
  by_cases h : headerOk s.params.magic s.src.read s.srcLen.toNat = true
  · rw [if_pos h] at hc ⊢
    exact State.RunsTo.step hc (decoding_runsTo s.dst s.srcLen.toNat (State.setWork _ _) _ [] rfl rfl rfl (Nat.sub_le _ _))
  · rw [if_neg h] at hc ⊢
    exact State.RunsTo.one hc

/-- DST after a completion: the command's output from offset 0 up, the old bytes beyond it. -/
theorem State.commandDone_dst_read (s : State) (op : BitVec 2) (irqEn : Bool) (o : Outputs) (a : Nat) :
    (s.commandDone op irqEn o).dst.read a = o.written[a]?.getD (s.dst.read a) := by
  show (s.dst.writeList 0 o.written).read a = _
  rw [Memory.read_writeList, if_pos (Nat.zero_le a), Nat.sub_zero]

/-- Settles O33: both runs end with the outputs of one function of what the two states agree on, and DST holds the old
bytes only from OUT_LEN up. -/
theorem decodeIgnoresWhatWasBefore : Obligations.DecodeIgnoresWhatWasBefore := by
  intro s s' irqEn hp hp' hm hparams hlen hcap hsrc
  have hm' : s'.portsMeet = false := by rw [State.portsMeet, ← hparams]; exact hm
  have hrun := decodeStart_runsTo s irqEn
  have hrun' := decodeStart_runsTo s' irqEn
  rw [← hparams, ← hlen, ← hcap, ← decodeOutputs_congr _ _ _ _ _ hsrc] at hrun'
  obtain ⟨hwritten, hout⟩ := decodeOutputs_length s.params.magic s.src.read s.srcLen.toNat s.dstCap.toNat
  generalize decodeOutputs s.params.magic s.src.read s.srcLen.toNat s.dstCap.toNat = o at hrun hrun' hwritten hout
  have houtLen : (s.commandDone opDecode irqEn o).outLen.toNat = o.written.length := by
    show (BitVec.ofNat 32 o.outLen).toNat = _
    rw [BitVec.toNat_ofNat, Nat.mod_eq_of_lt (Nat.lt_of_le_of_lt hout (by decide)), hwritten]
  refine ⟨_, _, _, _, exec_decode_idle s irqEn hp hm, exec_decode_idle s' irqEn hp' hm', hrun, hrun',
    rfl, rfl, rfl, rfl, rfl, rfl, fun a ha => ?_, fun a ha => ?_⟩ <;> rw [houtLen] at ha
  · rw [State.commandDone_dst_read, State.commandDone_dst_read, List.getElem?_eq_getElem ha]
    rfl
  · rw [State.commandDone_dst_read, List.getElem?_eq_none ha]
    rfl

end Sys2Proof.Machine
end

section
/-! The encoding of instructions: the four commands as one family over OP, then the decoder and the encoder as inverses
of one another (30_encoding.md R54 to R64). -/

namespace Sys2Proof

/-! ## CTRL words -/

/-- The command instruction that `CTRL.OP` names (30_encoding.md R64). -/
def commandInstr (op : BitVec 2) (irqEn : Bool) : Instr :=
  if op = opEncode then .encode irqEn
  else if op = opDecode then .decode irqEn
  else if op = opEstComp then .estComp irqEn
  else .estDecomp irqEn

/-- With START set, the command is the one of OP, and no other bit of the word is looked at but IRQ_EN. -/
theorem decodeCtrl_start (w : Reg) (h : ctrlStart w = true) :
    decodeCtrl w = .ok (commandInstr (ctrlOp w) (ctrlIrqEn w)) := if_pos h

theorem ctrlOp_eq_ofNat (w : Reg) (n : Nat) (h : w.toNat % 4 = n) : ctrlOp w = BitVec.ofNat 2 n := by
  rw [← h, ← ctrlOp_toNat, BitVec.ofNat_toNat, BitVec.setWidth_eq]

/-- A word with START set and the code `n` in its low two bits is the command of OP `n`. -/
theorem decodeCtrl_of_mod (w : Reg) (n : Nat) (hs : w.getLsbD 8 = true) (h : w.toNat % 4 = n) :
    decodeCtrl w = .ok (commandInstr (BitVec.ofNat 2 n) (w.getLsbD 2)) := by
  rw [decodeCtrl_start w hs, ctrlOp_eq_ofNat w n h, ctrlIrqEn]

@[simp] theorem ctrlStart_ctrlWord (op : BitVec 2) (irqEn : Bool) : ctrlStart (ctrlWord op irqEn) = true := by
  revert op irqEn
  decide

@[simp] theorem ctrlOp_ctrlWord (op : BitVec 2) (irqEn : Bool) : ctrlOp (ctrlWord op irqEn) = op := by
  revert op irqEn
  decide

@[simp] theorem ctrlIrqEn_ctrlWord (op : BitVec 2) (irqEn : Bool) : ctrlIrqEn (ctrlWord op irqEn) = irqEn := by
  revert op irqEn
  decide

/-- The word of a command decodes to that command. -/
theorem decode_ctrlWord (op : BitVec 2) (irqEn : Bool) :
    decode (.ctrl (ctrlWord op irqEn)) = .ok (commandInstr op irqEn) := by
  rw [decode, decodeCtrl_start _ (ctrlStart_ctrlWord op irqEn), ctrlOp_ctrlWord, ctrlIrqEn_ctrlWord]

/-! ## Tokens -/

theorem Instr.wellFormed_bref (count : BitVec 5) (jump : BitVec 11) :
    (Instr.bref count jump).wellFormed = true ↔ count ≠ 0 := bne_iff_ne

/-- The decoder yields no back-reference with `count = 0`, since that token is a literal (30_encoding.md R58). -/
theorem decodeToken_wellFormed (t : Half) : (decodeToken t).wellFormed = true := by
  obtain ⟨-, h⟩ | ⟨hc, h⟩ := decodeToken_cases t <;> rw [h]
  · rfl
  · exact (Instr.wellFormed_bref _ _).mpr hc

/-- The fields of a token make up the whole token, so the encoder gives it back. -/
theorem encode_decodeToken (t : Half) : encode (decodeToken t) = .token t := by
  obtain ⟨hc, h⟩ | ⟨-, h⟩ := decodeToken_cases t <;> rw [h, encode]
  · rw [← hc, tokenWord_of_fields]
  · rw [tokenWord_of_fields]

theorem decodeTokenBytes_le16 (t : Half) (rest : List Byte) :
    decodeTokenBytes (le16 t ++ rest) = .ok (decodeToken t, rest) := by
  simp only [le16, List.cons_append, List.nil_append, decodeTokenBytes, rd16_le16]

/-! ## The statements -/

/-- Settles O1: a token decodes by its two fields, a back-reference because its count is not 0; a command word decodes
by START, OP and IRQ_EN. -/
theorem decodeOfEncode : Obligations.DecodeOfEncode := by
  intro i hwf
  cases i with
  | lit jump => exact congrArg Except.ok (decodeToken_literal jump)
  | bref count jump => exact congrArg Except.ok (decodeToken_backRef count jump ((Instr.wellFormed_bref count jump).mp hwf))
  | encode irqEn => exact decode_ctrlWord opEncode irqEn
  | decode irqEn => exact decode_ctrlWord opDecode irqEn
  | estComp irqEn => exact decode_ctrlWord opEstComp irqEn
  | estDecomp irqEn => exact decode_ctrlWord opEstDecomp irqEn

/-- Settles O2, by the two kinds a token can decode to. -/
theorem everyTokenValueIsAnInstruction : Obligations.EveryTokenValueIsAnInstruction := fun t rest =>
  ⟨decodeToken_wellFormed t, encode_decodeToken t, decodeTokenBytes_le16 t rest⟩

/-- Settles O3: the token as a number is `b0 + 256 * b1`, and `256 = 8 * 32` splits it at bit 5. -/
theorem tokenFieldsOfTwoBytes : Obligations.TokenFieldsOfTwoBytes := by
  intro b0 b1
  have ht := rd16_toNat b0 b1
  have hc := tokenCount_toNat (rd16 b0 b1)
  have hj := tokenJump_toNat (rd16 b0 b1)
  exact ⟨ht, hc, hj, by omega, by omega⟩

/-- Settles O4: the packed token as a number, and the two bytes of any 16-bit number; the six examples are computed. -/
theorem tokenPackingIsLittleEndian : Obligations.TokenPackingIsLittleEndian := by
  refine ⟨fun count jump => ⟨tokenWord_toNat count jump, ?_⟩, by decide⟩
  rw [tokenBytes, le16_toNat, tokenWord_toNat]

/-- Settles O6: the low two bits of the word are OP, and the command is the one of OP. -/
theorem ctrlWordSelectsTheCommand : Obligations.CtrlWordSelectsTheCommand :=
  ⟨fun w => ⟨decodeCtrl_noStart w, decodeCtrl_of_mod w 0, decodeCtrl_of_mod w 1, decodeCtrl_of_mod w 2,
    decodeCtrl_of_mod w 3⟩, by decide⟩

/-- Settles O5, by the test on `count` in the decoder. -/
theorem countAloneSelectsTheKind : Obligations.CountAloneSelectsTheKind := fun _ =>
  ⟨fun h => if_pos h, fun h => if_neg h⟩

/-- Settles O7: the decoder is run on the seven words. -/
theorem wordsOfTheSpecDecode : Obligations.WordsOfTheSpecDecode := ⟨rfl, rfl, rfl, rfl, rfl, rfl, rfl⟩

end Sys2Proof
end

section
/-! The four commands as one family over OP: what a START does, and where the core alone comes to from it
(40_commands.md R66 to R71). -/

namespace Sys2Proof.Machine

theorem op_cases (op : BitVec 2) : op = opEncode ∨ op = opDecode ∨ op = opEstComp ∨ op = opEstDecomp := by
  revert op
  decide

/-! ## START -/

/-- The command of an OP is its START. -/
theorem exec_commandInstr (op : BitVec 2) (irqEn : Bool) (s : State) :
    exec (commandInstr op irqEn) s = startCommand op irqEn (commandWork op) s := by
  obtain rfl | rfl | rfl | rfl := op_cases op <;> rfl

theorem exec_commandInstr_idle (op : BitVec 2) (irqEn : Bool) (s : State) (hp : s.phase = .idle)
    (hm : s.portsMeet = false) : exec (commandInstr op irqEn) s = .next (s.start op irqEn (commandWork op)) :=
  (exec_commandInstr op irqEn s).trans (startCommand_idle op irqEn _ s hp hm)

theorem exec_commandInstr_busy (op : BitVec 2) (irqEn : Bool) (s : State) (hb : s.busy = true) :
    exec (commandInstr op irqEn) s = .next s :=
  (exec_commandInstr op irqEn s).trans (startCommand_busy op irqEn _ s hb)

/-- A START in IDLE that has a next state was accepted. -/
theorem startCommand_next {op : BitVec 2} {irqEn : Bool} {w : Work} {s t : State} (hp : s.phase = .idle)
    (h : startCommand op irqEn w s = .next t) : t = s.start op irqEn w := by
  cases hm : s.portsMeet with
  | true =>
    rw [startCommand_refused op irqEn w s hp hm] at h
    cases h
  | false =>
    rw [startCommand_idle op irqEn w s hp hm] at h
    injection h with h
    exact h.symm

theorem State.start_statusWord (s : State) (op : BitVec 2) (irqEn : Bool) (w : Work) :
    (s.start op irqEn w).statusWord = 0x1 := by
  simp [State.statusWord_eq, Result.code]

/-- Settles O10: the four commands are one family, whose START is accepted in IDLE and ignored while BUSY. -/
theorem startBeginsTheCommand : Obligations.StartBeginsTheCommand := by
  intro s irqEn
  refine ⟨fun hp hm => ?_, fun hb => ?_, fun i t hi hp h => ?_⟩
  · have accepted := fun op => exec_commandInstr_idle op irqEn s hp hm
    exact ⟨accepted opEncode, accepted opDecode, accepted opEstComp, accepted opEstDecomp⟩
  · have ignored := fun op => exec_commandInstr_busy op irqEn s hb
    exact ⟨ignored opEncode, ignored opDecode, ignored opEstComp, ignored opEstDecomp⟩
  · obtain ⟨op, rfl⟩ : ∃ op, i = commandInstr op irqEn := by
      rcases hi with rfl | rfl | rfl | rfl
      · exact ⟨opEncode, rfl⟩
      · exact ⟨opDecode, rfl⟩
      · exact ⟨opEstComp, rfl⟩
      · exact ⟨opEstDecomp, rfl⟩
    rw [exec_commandInstr] at h
    obtain rfl := startCommand_next hp h
    exact ⟨rfl, s.start_statusWord _ _ _, rfl⟩

/-! ## A write to CTRL -/

/-- A write to CTRL with START set, on a machine whose ports are apart, begins the command of its OP. -/
theorem step_writeCtrl_start {s : State} {w : Reg} {ts : List Turn} (hts : s.turns = .host (.writeReg 0x00 32 w) :: ts)
    (hp : s.phase = .idle) (hs : ctrlStart w = true) (hm : s.portsMeet = false) :
    step s = .next ((s.setTurns ts).start (ctrlOp w) (ctrlIrqEn w) (commandWork (ctrlOp w))) := by
  rw [step_of_hostNext hts, hostTurn_commandWord _ w _ (decodeCtrl_start w hs)]
  exact exec_commandInstr_idle _ _ _ hp hm

/-- A write to CTRL without START selects OP and IRQ_EN (10_state.md R19). -/
theorem writeReg_ctrl_noStart (w : Reg) (s : State) (hs : ctrlStart w = false) :
    writeReg .ctrl w s = .next (s.setCtrl (ctrlOp w) (ctrlIrqEn w)) := by
  simp only [writeReg, writeCtrl, decode, decodeCtrl_noStart w hs]

/-- Settles O11, by START and the phase. -/
theorem ctrlWriteStartsOrSelects : Obligations.CtrlWriteStartsOrSelects := by
  intro s w ts hts
  refine ⟨fun hp hs hm => ?_, fun hp hs => ?_, fun hb => ?_⟩
  · exact ⟨step_writeCtrl_start hts hp hs hm, (s.setTurns ts).start_statusWord (ctrlOp w) (ctrlIrqEn w) _, rfl⟩
  · have hstep := step_writeReg_idle s ts 0x00 w hp rfl
    rw [← hts] at hstep
    exact hstep.trans (writeReg_ctrl_noStart w _ hs)
  · have hstep := step_writeReg_busy s ts 0x00 w hb rfl
    rw [← hts] at hstep
    exact hstep

/-! ## From START to completion -/

/-- From an emission on: the bytes emitted and then what is still to be emitted go to DST as far as they fit, and the
command completes (41_encoder.md R83). -/
theorem encodeEmit_runsTo {s t : State} {bs : List Byte} {e : EncRegs} (fuel : Nat)
    (hc : coreTurn s = .next (t.encodeEmit bs e)) (hw : e.wr ≤ t.dstCap.toNat) (hpos : e.pos ≤ e.len)
    (hrun : e.runStart ≤ e.pos) (hlit : e.pos - e.runStart < Config.maxLit) (hf : e.len - e.pos ≤ fuel) :
    let all := bs ++ encodeItems t.src.read e.len fuel e.pos e.runStart
    s.RunsTo (((t.setDst (t.dst.writeList e.wr (all.take (t.dstCap.toNat - e.wr)))).finish
      (if t.dstCap.toNat < e.wr + all.length then .dstOverflow else .ok)
      (min (e.wr + all.length) t.dstCap.toNat) e.len 0 false).setTurns []) := by
  intro all
  have hlen : all.length = bs.length + (encodeItems t.src.read e.len fuel e.pos e.runStart).length := List.length_append
  rw [encodeEmit_eq t bs e hw] at hc
  by_cases hov : t.dstCap.toNat < e.wr + bs.length
  · rw [if_pos hov] at hc
    have hall : t.dstCap.toNat < e.wr + all.length := by omega
    rw [if_pos hall, Nat.min_eq_right (Nat.le_of_lt hall), List.take_append_of_le_length (by omega)]
    exact State.RunsTo.one hc
  · rw [if_neg hov] at hc
    have hrest := encoding_runsTo fuel ((t.setDst (t.dst.writeList e.wr bs)).setWork _)
      { e with wr := e.wr + bs.length } rfl (Nat.not_lt.mp hov) hpos hrun hlit hf
    rw [hlen, ← Nat.add_assoc, List.take_append, List.take_of_length_le (by omega), Memory.writeList_append, Nat.sub_sub]
    exact State.RunsTo.step hc hrest

/-- A started ENCODE comes to the outputs of its function: the length check, the header, then the scan from position 0
(41_encoder.md R73, R82). -/
theorem encodeStart_runsTo (s : State) (irqEn : Bool) :
    (s.start opEncode irqEn .encodeStart).RunsTo (s.commandDone opEncode irqEn
      (encodeOutputs s.params.magic s.src.read s.srcLen.toNat s.dstCap.toNat)) := by
  have hc : coreTurn (s.start opEncode irqEn .encodeStart) = .next (s.start opEncode irqEn .encodeStart).encodeBegin := rfl
  unfold encodeOutputs
  rw [State.encodeBegin, State.start_srcLen] at hc
  by_cases hl : Config.maxOrigLen < s.srcLen.toNat
  · rw [if_pos hl] at hc ⊢
    exact State.RunsTo.one hc
  · rw [if_neg hl] at hc ⊢
    have hrun := encodeEmit_runsTo s.srcLen.toNat hc (Nat.zero_le _) (Nat.zero_le _) (Nat.le_refl _)
      (show 0 - 0 < Config.maxLit by decide) (Nat.le_refl _)
    simp only [Nat.zero_add, Nat.sub_zero] at hrun
    exact hrun

/-- A started EST_COMP comes to the outputs of its function (43_estimators.md R97). -/
theorem estCompStart_runsTo (s : State) (irqEn : Bool) :
    (s.start opEstComp irqEn .estComp).RunsTo (s.commandDone opEstComp irqEn (estCompOutputs s.srcLen.toNat)) := by
  have hdone : (s.start opEstComp irqEn .estComp).estimateComp.setTurns [] =
      s.commandDone opEstComp irqEn (estCompOutputs s.srcLen.toNat) := by
    rw [State.estimateComp, State.start_srcLen, estCompOutputs]
    split <;> rfl
  exact hdone ▸ State.RunsTo.one rfl

/-- A started EST_DECOMP comes to the outputs of its function (43_estimators.md R98). -/
theorem estDecompStart_runsTo (s : State) (irqEn : Bool) :
    (s.start opEstDecomp irqEn .estDecomp).RunsTo (s.commandDone opEstDecomp irqEn
      (estDecompOutputs s.params.magic s.src.read s.srcLen.toNat)) := by
  have hh : (s.start opEstDecomp irqEn .estDecomp).headerOk = headerOk s.params.magic s.src.read s.srcLen.toNat := rfl
  have hdone : (s.start opEstDecomp irqEn .estDecomp).estimateDecomp.setTurns [] =
      s.commandDone opEstDecomp irqEn (estDecompOutputs s.params.magic s.src.read s.srcLen.toNat) := by
    rw [State.estimateDecomp, hh, estDecompOutputs]
    split <;> rfl
  exact hdone ▸ State.RunsTo.one rfl

/-- A started command comes to the outputs of `Command`, and changes nothing else (40_commands.md R66, R71). -/
theorem started_runsTo (s : State) (op : BitVec 2) (irqEn : Bool) :
    (s.start op irqEn (commandWork op)).RunsTo (s.commandDone op irqEn (s.commandOutputs op)) := by
  obtain rfl | rfl | rfl | rfl := op_cases op
  · exact encodeStart_runsTo s irqEn
  · exact decodeStart_runsTo s irqEn
  · exact estCompStart_runsTo s irqEn
  · exact estDecompStart_runsTo s irqEn

theorem exec_encode_idle (s : State) (irqEn : Bool) (hp : s.phase = .idle) (hm : s.portsMeet = false) :
    exec (.encode irqEn) s = .next (s.start opEncode irqEn .encodeStart) :=
  exec_commandInstr_idle opEncode irqEn s hp hm

/-- Settles O20: the length check and the header by the core's first turn, the scan by induction over what is left of the
input. -/
theorem encodeStepsToTheCommandFunction : Obligations.EncodeStepsToTheCommandFunction :=
  fun s irqEn hp hm => ⟨_, exec_encode_idle s irqEn hp hm, encodeStart_runsTo s irqEn⟩

/-- Settles O32: the header check by the core's first turn, the token loop by induction over what is left of the
container. -/
theorem decodeStepsToTheCommandFunction : Obligations.DecodeStepsToTheCommandFunction :=
  fun s irqEn hp hm => ⟨_, exec_decode_idle s irqEn hp hm, decodeStart_runsTo s irqEn⟩

/-- Settles O57: the write begins the command of its OP, which runs to its function whatever turns were to come. -/
theorem startedCommandLeavesItsFunction : Obligations.StartedCommandLeavesItsFunction :=
  fun s w ts hp hts hs hm => ⟨_, step_writeCtrl_start hts hp hs hm, started_runsTo (s.setTurns ts) (ctrlOp w) (ctrlIrqEn w)⟩

/-! ## Completion from every BUSY state -/

/-- A core BUSY at a command's beginning, with the STATUS fields of R32, is as a START leaves it. -/
theorem State.start_self (s : State) (w : Work) (hp : s.phase = .busy w) (hd : s.done = false) (hm : s.lenMismatch = false)
    (hr : s.result = .ok) : s.start s.op s.irqEn w = s := by
  obtain ⟨⟩ := s
  cases hp
  cases hd
  cases hm
  cases hr
  rfl

/-- The invariant tells how far a running command has come: it is at its beginning, or its working registers are in
range (10_state.md R36, R37). -/
theorem State.Inv.work_cases {s : State} (hi : s.Inv) (hb : s.busy = true) :
    s.phase = .busy (commandWork s.op) ∨
    (∃ e, s.phase = .busy (.encoding e) ∧ e.InRange s.srcLen.toNat s.dstCap.toNat) ∨
    (∃ d, s.phase = .busy (.decoding d) ∧ d.InRange s.srcLen.toNat s.dstCap.toNat s.declaredLen) := by
  obtain ⟨w, hp⟩ := s.busy_iff.mp hb
  have hw := hi.busy_work w hp
  cases w with
  | encodeStart => exact .inl (by rw [hp, show s.op = opEncode from hw]; rfl)
  | encoding e => exact .inr (.inl ⟨e, hp, hw.2⟩)
  | decodeStart => exact .inl (by rw [hp, show s.op = opDecode from hw]; rfl)
  | decoding d => exact .inr (.inr ⟨d, hp, hw.2⟩)
  | estComp => exact .inl (by rw [hp, show s.op = opEstComp from hw]; rfl)
  | estDecomp => exact .inl (by rw [hp, show s.op = opEstDecomp from hw]; rfl)

/-- Writing back what a canonical memory holds leaves it as it is. -/
theorem Memory.writeList_readRange_self (m : Memory) (h : m.wf) (n : Nat) : m.writeList 0 (readRange m.read 0 n) = m := by
  refine Memory.eq_of_read _ _ (m.writeList_wf _ _ h) h fun a => ?_
  rw [Memory.read_writeList, if_pos (Nat.zero_le a), readRange_getElem?, Nat.sub_zero, Nat.zero_add]
  split <;> rfl

/-- Settles O55, by how far the command has come: from its beginning it runs to its function; a scan has at most
`len - pos` passes left, a token loop at most `len - rd`, its output so far being what DST holds. -/
theorem everyCommandCompletes : Obligations.EveryCommandCompletes := by
  intro s hi hb
  obtain hp | ⟨e, hp, hr⟩ | ⟨d, hp, hr⟩ := hi.work_cases hb
  · obtain ⟨hd, hm, hr⟩ := hi.busy_status hb
    have hrun := started_runsTo s s.op s.irqEn
    rw [s.start_self _ hp hd hm hr] at hrun
    exact ⟨_, hrun, rfl, rfl⟩
  · exact ⟨_, encoding_runsTo (e.len - e.pos) s e hp hr.wr_le hr.pos_le hr.run_le hr.run_lt (Nat.le_refl _), rfl, rfl⟩
  · exact ⟨_, decoding_runsTo s.dst (d.len - d.rd) s d (readRange s.dst.read 0 d.wr) hp
      (s.dst.writeList_readRange_self hi.dst_wf d.wr).symm (readRange_length _ _ _).symm (Nat.le_refl _), rfl, rfl⟩

end Sys2Proof.Machine
end

section
/-! The round trip: the container an ENCODE leaves, read by a DECODE (40_commands.md R72, 42_decoder.md R96). -/

namespace Sys2Proof.Machine

/-- ENCODE with room for the container answers the container (41_encoder.md R85). -/
theorem encodeOutputs_of_fits (magic : Vector Byte 5) (src : Nat → Byte) (len cap : Nat) (hl : len ≤ Config.maxOrigLen)
    (hc : (encodeStream magic src len).length ≤ cap) :
    encodeOutputs magic src len cap =
      { written := encodeStream magic src len, outLen := (encodeStream magic src len).length, declLen := len, rdPos := 0,
        result := .ok, lenMismatch := false } := by
  rw [encodeOutputs, if_neg (Nat.not_lt.mpr hl)]
  simp only [List.take_of_length_le hc, Nat.min_eq_left hc, if_neg (Nat.not_lt.mpr hc)]

/-- A source that holds a list from offset 0 up reads as that list. -/
theorem readRange_eq_of_getElem (src : Nat → Byte) (l : List Byte) (h : ∀ (i : Nat) (hi : i < l.length), src i = l[i]) :
    readRange src 0 l.length = l := by
  apply List.ext_getElem?
  intro i
  rw [readRange_getElem?, Nat.zero_add]
  split
  · rw [List.getElem?_eq_getElem ‹_›, h i ‹_›]
  · rw [List.getElem?_eq_none (Nat.not_lt.mp ‹_›)]

/-- A header the encoder emitted passes the decoder's check and declares the encoder's length (42_decoder.md R87). -/
theorem headerOk_of_headerBytes (magic : Vector Byte 5) (src : Nat → Byte) (len total : Nat) (hl : len ≤ Config.maxOrigLen)
    (ht : Config.hdrLen ≤ total) (hs : readRange src 0 Config.hdrLen = headerBytes magic len) :
    headerOk magic src total = true ∧ declaredLen src = len := by
  rw [headerBytes, show Config.hdrLen = Config.magicLen + 2 from rfl, readRange_add] at hs
  obtain ⟨hmagic, hdecl⟩ := List.append_inj hs (by simp)
  constructor
  · simp [headerOk, hmagic, ht]
  · have htok : tokenAt src 5 = BitVec.ofNat 16 len := tokenAt_of_bytes src 5 _ [] 0 (by rw [List.append_nil]; exact hdecl)
    have : declaredLen src = (BitVec.ofNat 16 len).toNat := congrArg BitVec.toNat htok
    rw [this, BitVec.toNat_ofNat]
    simp only [Config.maxOrigLen] at hl
    omega

/-- DECODE of a container the encoder made answers the encoder's input (42_decoder.md R96). -/
theorem decodeOutputs_encodeStream (magic : Vector Byte 5) (inp src : Nat → Byte) (len cap : Nat)
    (hl : len ≤ Config.maxOrigLen) (hc : len ≤ cap)
    (hs : readRange src 0 (encodeStream magic inp len).length = encodeStream magic inp len) :
    decodeOutputs magic src (encodeStream magic inp len).length cap =
      { written := readRange inp 0 len, outLen := len, declLen := len, rdPos := (encodeStream magic inp len).length,
        result := .ok, lenMismatch := false } := by
  have htotal : (encodeStream magic inp len).length = Config.hdrLen + (encodeItems inp len len 0 0).length := by
    rw [encodeStream, List.length_append, headerBytes_length]
  generalize (encodeStream magic inp len).length = total at htotal hs ⊢
  rw [htotal, readRange_add, encodeStream, Nat.zero_add] at hs
  obtain ⟨hheader, hitems⟩ := List.append_inj hs (by simp)
  obtain ⟨hok, hdecl⟩ := headerOk_of_headerBytes magic src len total hl (by omega) hheader
  have hloop : decodeItems src total (min len cap) total Config.hdrLen [] = ⟨readRange inp 0 len, total, .ok⟩ :=
    decodeItems_encodeItems inp src len total (min len cap) (Nat.le_min.mpr ⟨Nat.le_refl _, hc⟩) len 0 0 Config.hdrLen total
      (Nat.zero_le _) (Nat.le_refl _) (by decide) (fun _ => rfl) (Nat.le_refl _) htotal.symm (Nat.sub_le _ _)
      (by rw [htotal, Nat.add_sub_cancel_left]; exact hitems)
  rw [decodeOutputs, if_pos hok, hdecl, hloop]
  simp [lengthsDiffer]

/-- Settles O35: ENCODE leaves the container as its function gives it, and the function of DECODE on those bytes gives the
input back. -/
theorem encodeThenDecodeRoundTrip : Obligations.EncodeThenDecodeRoundTrip := by
  intro s irqEn hp hm hl hcap
  have hrun := encodeStart_runsTo s irqEn
  rw [encodeOutputs_of_fits _ _ _ _ hl hcap] at hrun
  refine ⟨_, _, exec_encode_idle s irqEn hp hm, hrun, rfl, rfl, fun s' irqEn' hp' hm' hparams hlen hsrc hcap' => ?_⟩
  have hout : s'.srcLen.toNat = (encodeStream s.params.magic s.src.read s.srcLen.toNat).length := by
    rw [hlen]
    exact (BitVec.toNat_ofNat _ _).trans (Nat.mod_eq_of_lt (Nat.lt_of_le_of_lt hcap s.dstCap.isLt))
  have hcont := readRange_eq_of_getElem s'.src.read (encodeStream s.params.magic s.src.read s.srcLen.toNat) fun i hi => by
    rw [hsrc i (by rwa [← hlen, hout]), State.commandDone_dst_read, List.getElem?_eq_getElem hi, Option.getD_some]
  have hrun' := decodeStart_runsTo s' irqEn'
  rw [hparams, hout, decodeOutputs_encodeStream _ _ _ _ _ hl hcap' hcont] at hrun'
  refine ⟨_, _, exec_decode_idle s' irqEn' hp' hm', hrun', rfl, rfl, reg_ofNat_toNat s.srcLen, rfl, fun i hi => ?_⟩
  rw [State.commandDone_dst_read, readRange_getElem?, if_pos hi, Nat.zero_add, Option.getD_some]

end Sys2Proof.Machine
end

section
/-! The match finder and what the whole loop of ENCODE emits: the items of a container and how long it can be
(41_encoder.md R74 to R80, R84). -/

namespace Sys2Proof.Machine

/-! ## The match finder -/

/-- Settles O15: the loop of MatchLen, run from 0 with the cap as its fuel. -/
theorem matchLenIsTheLongestCappedRun : Obligations.MatchLenIsTheLongestCappedRun := by
  intro inp len pos j _ _ hpos
  obtain ⟨-, hcap, hend, heq, hstop⟩ := matchLenFrom_spec inp len pos j Config.maxMatch 0 hpos
  rw [Nat.zero_add] at hcap hstop
  exact ⟨hcap, hend, fun i hi => heq i (Nat.zero_le i) hi, hstop⟩

/-- Settles O16: the loop of BestMatch, run over the distances after 0 from the match `(0, 0)`, which it keeps when no
candidate is longer than 0. -/
theorem bestMatchIsLongestThenNearest : Obligations.BestMatchIsLongestThenNearest := by
  intro inp len pos best
  obtain ⟨-, hmax, hcase⟩ := bestMatchFrom_spec inp len pos (min Config.window pos) 0 (0, 0)
  rw [Nat.zero_add] at hmax hcase
  refine ⟨hmax, ?_⟩
  obtain hnone | ⟨hlong, hlow, hhigh, hlen, hnearer⟩ := hcase
  · exact ⟨fun _ => congrArg Prod.snd hnone, fun hlong => absurd hlong (by simp [best, bestMatch, hnone])⟩
  · exact ⟨fun hzero => absurd hzero (Nat.ne_of_gt hlong), fun _ => ⟨hlow, hhigh, hlen, hnearer⟩⟩

/-! ## The items of a container -/

theorem Item.bytes_length (x : Item) : x.bytes.length = x.size := by
  cases x with
  | raw bs => rw [Item.bytes, Item.size, List.length_append, tokenBytes_length]
  | back count jump => rfl

/-- `bytes` are those of the items, each one the encoder may emit and may follow the one before it (41_encoder.md R80). -/
structure IsItemStream (bytes : List Byte) (items : List Item) : Prop where
  bytes_eq : bytes = items.flatMap Item.bytes
  emitted : ∀ x ∈ items, x.emitted
  chain : items.IsChain Item.mayPrecede

theorem IsItemStream.nil : IsItemStream [] [] := ⟨rfl, by simp, .nil⟩

/-- One more item in front. -/
theorem IsItemStream.cons {x : Item} {bytes : List Byte} {items : List Item} (h : IsItemStream bytes items)
    (hx : x.emitted) (hp : ∀ y ∈ items.head?, x.mayPrecede y) : IsItemStream (x.bytes ++ bytes) (x :: items) where
  bytes_eq := by rw [List.flatMap_cons, h.bytes_eq]
  emitted := List.forall_mem_cons.mpr ⟨hx, h.emitted⟩
  chain := h.chain.cons hp

/-- A back-reference may stand before any item. -/
theorem Item.back_mayPrecede (count jump : Nat) (y : Item) : (Item.back count jump).mayPrecede y := trivial

/-- A literal item may stand before a back-reference. -/
theorem Item.raw_mayPrecede_back (bs : List Byte) (count jump : Nat) : (Item.raw bs).mayPrecede (.back count jump) := trivial

/-- A full literal item may stand before any item. -/
theorem Item.full_mayPrecede (bs : List Byte) (h : bs.length = Config.maxLit) (y : Item) : (Item.raw bs).mayPrecede y := by
  cases y with
  | raw cs => exact h
  | back count jump => trivial

/-- The item of a run of 1 to 2047 bytes is one the encoder may emit (41_encoder.md R79). -/
theorem Item.run_emitted (inp : Nat → Byte) (a n : Nat) (h : 1 ≤ n) (hn : n ≤ Config.maxLit) :
    (Item.raw (readRange inp a n)).emitted := by
  rw [Item.emitted, readRange_length]
  exact ⟨h, hn⟩

/-- What is still to be emitted from a position on is a list of items; it begins with a literal item when a run is
pending or nothing has been emitted, and it is empty at the end of the input (41_encoder.md R80). -/
theorem encodeItems_isItemStream (inp : Nat → Byte) (len fuel pos runStart : Nat) (hf : len ≤ pos + fuel)
    (hr : runStart ≤ pos) (hp : pos ≤ len) (hl : pos - runStart < Config.maxLit) :
    ∃ items, IsItemStream (encodeItems inp len fuel pos runStart) items ∧
      (pos < len → runStart < pos ∨ pos = 0 → ∃ bs rest, items = .raw bs :: rest) ∧ (pos = len → items = []) := by
  induction fuel generalizing pos runStart with
  | zero => exact ⟨[], .nil, fun h => by omega, fun _ => rfl⟩
  | succ fuel ih =>
    rcases Nat.eq_or_lt_of_le hp with hend | hlt
    · rw [encodeItems_done _ _ _ _ _ (Nat.le_of_eq hend.symm)]
      exact ⟨[], .nil, fun h => absurd hend (Nat.ne_of_lt h), fun _ => rfl⟩
    · rw [encodeItems_next _ _ _ _ _ hlt]
      obtain ⟨hpos', hp', hr', hl', -, -, -⟩ := scanStep_ranges inp len pos runStart hlt hr hl
      obtain ⟨items, hitems, hfirst, hlast⟩ := ih _ _ (by omega) hr' hp' hl'
      have hne : pos ≠ len := Nat.ne_of_lt hlt
      rcases scanStep_cases inp len pos runStart hp with
        ⟨count, jump, hmin, hmax, hjump, hwin, hback, -, -, hscan⟩ | ⟨hflush, -, -, hscan⟩ | ⟨-, hmore, -, -, hscan⟩ <;>
        rw [hscan] at hitems hfirst hlast ⊢
      · have hbref := hitems.cons (x := .back count jump) ⟨hmin, hmax, hjump, hwin⟩ fun y _ => Item.back_mayPrecede _ _ y
        by_cases hrun : runStart < pos
        · rw [if_pos hrun, literalItem_eq, List.append_assoc]
          refine ⟨_, hbref.cons (Item.run_emitted _ _ _ (by omega) (Nat.le_of_lt hl)) ?_, fun _ _ => ⟨_, _, rfl⟩,
            fun h => absurd h hne⟩
          rintro y ⟨⟩
          exact Item.raw_mayPrecede_back _ _ _
        · rw [if_neg hrun, List.nil_append]
          exact ⟨_, hbref, fun _ h => by omega, fun h => absurd h hne⟩
      · rw [literalItem_eq]
        refine ⟨_, hitems.cons (Item.run_emitted _ _ _ (by omega) (by omega)) fun y hy => ?_, fun _ _ => ⟨_, _, rfl⟩,
          fun h => absurd h hne⟩
        rcases hflush with hfull | hend
        · exact Item.full_mayPrecede _ (by rw [readRange_length, hfull]) y
        · rw [hlast hend] at hy
          cases hy
      · exact ⟨items, hitems, fun _ _ => hfirst (Nat.lt_of_le_of_ne hlt hmore) (.inl (Nat.lt_succ_of_le hr)),
          fun h => absurd h hne⟩

theorem encodeStream_length (magic : Vector Byte 5) (inp : Nat → Byte) (len : Nat) :
    (encodeStream magic inp len).length = 7 + (encodeItems inp len len 0 0).length := by
  rw [encodeStream, List.length_append, headerBytes_length]

/-- Settles O17, by induction over the passes of the encoder's loop: what a pass emits stands before what the later passes
emit. -/
theorem encodeEmitsOnlyTheItemsOfTheSpec : Obligations.EncodeEmitsOnlyTheItemsOfTheSpec := by
  intro magic inp len _
  obtain ⟨items, hitems, hfirst, hnone⟩ :=
    encodeItems_isItemStream inp len len 0 0 (Nat.le_add_left _ _) (Nat.le_refl _) (Nat.zero_le _) (by decide)
  refine ⟨items, ?_, hitems.emitted, hitems.chain, fun h => hfirst h (.inr rfl), fun h => hnone h.symm, ?_⟩
  · rw [encodeStream, hitems.bytes_eq, headerBytes]
  · rw [encodeStream_length, hitems.bytes_eq, List.length_flatMap]
    simp only [Item.bytes_length]

/-- Settles O18: the bound on what the loop emits from position 0 on, after the 7 bytes of the header; the container of
V-E14 is computed. -/
theorem encodedLengthBound : Obligations.EncodedLengthBound := by
  refine ⟨fun magic inp len _ => ?_, fun magic => ?_, rfl⟩
  · have hloop := encodeItems_length_le inp len len 0 0 (Nat.le_refl _) (Nat.zero_le _)
    rw [encodeStream_length]
    omega
  · rw [encodeStream_length, show (encodeItems _ 23 23 0 0).length = 28 by decide]

end Sys2Proof.Machine
end

section
/-! ENCODE on the machine: what a completed command leaves, and one pass of the running command (41_encoder.md R73,
R77 to R79, R82 to R85). -/

namespace Sys2Proof.Machine

/-! ## A completed ENCODE -/

/-- ENCODE of an unrepresentable length answers no byte and no length (41_encoder.md R82). -/
theorem encodeOutputs_unrepresentable (magic : Vector Byte 5) (src : Nat → Byte) (len cap : Nat)
    (hl : Config.maxOrigLen < len) : encodeOutputs magic src len cap = .nothing .unrepresentable := if_pos hl

/-- ENCODE without room for the container answers its first `cap` bytes (41_encoder.md R84). -/
theorem encodeOutputs_of_overflow (magic : Vector Byte 5) (src : Nat → Byte) (len cap : Nat) (hl : len ≤ Config.maxOrigLen)
    (hc : cap < (encodeStream magic src len).length) :
    encodeOutputs magic src len cap =
      { written := (encodeStream magic src len).take cap, outLen := cap, declLen := len, rdPos := 0,
        result := .dstOverflow, lenMismatch := false } := by
  rw [encodeOutputs, if_neg (Nat.not_lt.mpr hl)]
  simp only [Nat.min_eq_right (Nat.le_of_lt hc), if_pos hc]

/-- Settles O19: the refused command writes nothing. -/
theorem encodeRefusesUnrepresentableLengths : Obligations.EncodeRefusesUnrepresentableLengths := by
  intro s irqEn hp hm hl
  have hrun := encodeStart_runsTo s irqEn
  rw [encodeOutputs_unrepresentable _ _ _ _ hl, State.commandDone, ← hp] at hrun
  exact ⟨_, exec_encode_idle s irqEn hp hm, hrun⟩

/-- Settles O21, by whether the container fits. -/
theorem encodeOkLeavesTheContainer : Obligations.EncodeOkLeavesTheContainer := by
  intro s irqEn hp hm hl cont
  have hrun := encodeStart_runsTo s irqEn
  refine ⟨_, _, exec_encode_idle s irqEn hp hm, hrun, rfl, rfl, rfl, ?_⟩
  by_cases hfit : cont.length ≤ s.dstCap.toNat
  · rw [encodeOutputs_of_fits _ _ _ _ hl hfit]
    refine ⟨iff_of_true rfl hfit, fun _ => ⟨fun i hi => ?_, fun a ha => ?_, ?_, reg_ofNat_toNat s.srcLen, rfl, rfl⟩⟩
    · rw [State.commandDone_dst_read, List.getElem?_eq_getElem hi, Option.getD_some]
    · rw [State.commandDone_dst_read, List.getElem?_eq_none ha, Option.getD_none]
    · exact (BitVec.toNat_ofNat _ _).trans (Nat.mod_eq_of_lt (Nat.lt_of_le_of_lt hfit s.dstCap.isLt))
  · rw [encodeOutputs_of_overflow _ _ _ _ hl (Nat.not_le.mp hfit)]
    exact ⟨iff_of_false (by simp [State.commandDone]) hfit, fun h => absurd h (by simp [State.commandDone])⟩

/-- Settles O22: the bytes written are the container's first DST_CAP. -/
theorem encodeOverflowWritesThePrefix : Obligations.EncodeOverflowWritesThePrefix := by
  intro s irqEn hp hm hl cont hov
  have hrun := encodeStart_runsTo s irqEn
  rw [encodeOutputs_of_overflow _ _ _ _ hl hov] at hrun
  refine ⟨_, _, exec_encode_idle s irqEn hp hm, hrun, rfl, rfl, rfl, reg_ofNat_toNat s.dstCap, reg_ofNat_toNat s.srcLen, rfl,
    rfl, fun i hi => ?_, fun a ha => ?_⟩ <;> rw [State.commandDone_dst_read]
  · rw [List.getElem?_take_of_lt hi, List.getElem?_eq_getElem (Nat.lt_trans hi hov), Option.getD_some]
  · rw [List.getElem?_take_eq_none ha, Option.getD_none]

/-! ## One pass of a running ENCODE -/

/-- The bytes of a list written from `a` up read back. -/
theorem Memory.read_writeList_getElem? (m : Memory) (a i : Nat) (bs : List Byte) (h : i < bs.length) :
    bs[i]? = some ((m.writeList a bs).read (a + i)) := by
  rw [Memory.read_writeList, if_pos (Nat.le_add_right a i), Nat.add_sub_cancel_left, List.getElem?_eq_getElem h,
    Option.getD_some]

/-- A pass that accepts its match emits the pending run, if there is one, and the back-reference; the next run starts
behind it (41_encoder.md R77). -/
theorem scanStep_accept (inp : Nat → Byte) (len pos runStart : Nat) (h : Config.minMatch ≤ (bestMatch inp len pos).1) :
    scanStep inp len pos runStart =
      { bytes := ((if runStart < pos then [Item.raw (readRange inp runStart (pos - runStart))] else []) ++
          [Item.back (bestMatch inp len pos).1 (bestMatch inp len pos).2]).flatMap Item.bytes
        pos := pos + (bestMatch inp len pos).1, runStart := pos + (bestMatch inp len pos).1, best := bestMatch inp len pos } := by
  rw [scanStep, scanWith, if_pos h, scanAccept, literalItem_eq, List.flatMap_append, List.flatMap_singleton]
  split
  · rw [List.flatMap_singleton]
    rfl
  · rfl

/-- A pass that rejects its position at a full run, or at the end of the input, emits the run; the next one starts behind
it (41_encoder.md R78). -/
theorem scanStep_flush (inp : Nat → Byte) (len pos runStart : Nat) (h : (bestMatch inp len pos).1 < Config.minMatch)
    (hf : pos + 1 - runStart = Config.maxLit ∨ pos + 1 = len) :
    scanStep inp len pos runStart =
      { bytes := [Item.raw (readRange inp runStart (pos + 1 - runStart))].flatMap Item.bytes
        pos := pos + 1, runStart := pos + 1, best := bestMatch inp len pos } := by
  rw [scanStep, scanWith, if_neg (Nat.not_le.mpr h), scanReject, if_pos hf, literalItem_eq, List.flatMap_singleton]

/-- A pass that rejects any other position emits nothing; the byte joins the run (41_encoder.md R78). -/
theorem scanStep_join (inp : Nat → Byte) (len pos runStart : Nat) (h : (bestMatch inp len pos).1 < Config.minMatch)
    (hj : ¬ (pos + 1 - runStart = Config.maxLit ∨ pos + 1 = len)) :
    scanStep inp len pos runStart = { bytes := [], pos := pos + 1, runStart := runStart, best := bestMatch inp len pos } := by
  rw [scanStep, scanWith, if_neg (Nat.not_le.mpr h), scanReject, if_neg hj]

/-- The working registers after the pass `p`, before its bytes are counted. -/
def EncRegs.afterScan (e : EncRegs) (p : Scan) : EncRegs :=
  { e with pos := p.pos, runStart := p.runStart, bestLen := p.best.1, bestJump := p.best.2 }

/-- A step in which the core moves in a running ENCODE is a pass of the scan. -/
theorem step_encoding {s : State} {e : EncRegs} {ts : List Turn} (hp : s.phase = .busy (.encoding e)) (hc : s.CoreMoves ts) :
    step s = .next ((s.setTurns ts).encodeNext e) := by
  rw [step_of_coreMoves s ts hc]
  simp only [coreTurn, State.setTurns_phase, hp]

/-- Before the end of the input the step emits what the pass gives. -/
theorem step_scan {s : State} {e : EncRegs} {ts : List Turn} {p : Scan} (hp : s.phase = .busy (.encoding e))
    (hc : s.CoreMoves ts) (hlt : e.pos < e.len) (hscan : scanStep s.src.read e.len e.pos e.runStart = p) :
    step s = .next ((s.setTurns ts).encodeEmit p.bytes (e.afterScan p)) := by
  subst hscan
  exact (step_encoding hp hc).trans (congrArg Host.Outcome.next (if_pos hlt))

/-- An emission that fits writes all its bytes and goes on (41_encoder.md R83). -/
theorem State.encodeEmit_of_fits (s : State) (bytes : List Byte) (e : EncRegs) (h : e.wr + bytes.length ≤ s.dstCap.toNat) :
    s.encodeEmit bytes e =
      (s.setDst (s.dst.writeList e.wr bytes)).setWork (.encoding { e with wr := e.wr + bytes.length }) :=
  (encodeEmit_eq s bytes e (Nat.le_of_add_right_le h)).trans (if_neg (Nat.not_lt.mpr h))

/-- An emission that does not fit writes the bytes below the capacity and ends the command (41_encoder.md R84). -/
theorem State.encodeEmit_of_overflow (s : State) (bytes : List Byte) (e : EncRegs) (hw : e.wr ≤ s.dstCap.toNat)
    (h : s.dstCap.toNat < e.wr + bytes.length) :
    s.encodeEmit bytes e =
      (s.setDst (s.dst.writeList e.wr (bytes.take (s.dstCap.toNat - e.wr)))).finish .dstOverflow s.dstCap.toNat e.len 0
        false :=
  (encodeEmit_eq s bytes e hw).trans (if_pos h)

/-- A step that emits bytes: they go to DST from `wr` up and the scan goes on with the registers `e`, or those below the
capacity are written and the command ends with DST_OVERFLOW (41_encoder.md R83, R84). -/
theorem step_emits {s : State} {e : EncRegs} {ts : List Turn} {bytes : List Byte}
    (hstep : step s = .next ((s.setTurns ts).encodeEmit bytes e)) (hw : e.wr ≤ s.dstCap.toNat) (hl : e.len = s.srcLen.toNat) :
    (e.wr + bytes.length ≤ s.dstCap.toNat → ∃ t, step s = .next t ∧
      t = { s with turns := ts, dst := t.dst, phase := .busy (.encoding { e with wr := e.wr + bytes.length }) } ∧
      (∀ (i : Nat) (h : i < bytes.length), t.dst.read (e.wr + i) = bytes[i]) ∧
      (∀ a, a < e.wr ∨ e.wr + bytes.length ≤ a → t.dst.read a = s.dst.read a)) ∧
    (s.dstCap.toNat < e.wr + bytes.length → ∃ t, step s = .next t ∧
      t = { s with
        turns := ts, dst := t.dst, phase := .idle, done := true, result := .dstOverflow, lenMismatch := false,
        outLen := s.dstCap, declLen := s.srcLen, rdPos := 0 } ∧
      (∀ i, e.wr + i < s.dstCap.toNat → bytes[i]? = some (t.dst.read (e.wr + i))) ∧
      (∀ a, a < e.wr ∨ s.dstCap.toNat ≤ a → t.dst.read a = s.dst.read a)) := by
  refine ⟨fun hfit => ?_, fun hov => ?_⟩
  · rw [(s.setTurns ts).encodeEmit_of_fits bytes e hfit] at hstep
    refine ⟨_, hstep, rfl, fun i hi => ?_, fun a ha => ?_⟩
    · exact Option.some.inj ((Memory.read_writeList_getElem? _ _ _ _ hi).symm.trans (List.getElem?_eq_getElem hi))
    · exact ha.elim (Memory.read_writeList_below _ _ _ _) (Memory.read_writeList_above _ _ _ _)
  · rw [(s.setTurns ts).encodeEmit_of_overflow bytes e hw hov] at hstep
    have hlen : (bytes.take (s.dstCap.toNat - e.wr)).length = s.dstCap.toNat - e.wr :=
      List.length_take_of_le (by omega)
    refine ⟨_, hstep, ?_, fun i hi => ?_, fun a ha => ?_⟩
    · simp only [State.finish, hl, State.setTurns_dstCap, reg_ofNat_toNat]
      rfl
    · have hi' : i < s.dstCap.toNat - e.wr := by omega
      rw [← List.getElem?_take_of_lt hi']
      exact Memory.read_writeList_getElem? _ _ _ _ (hlen.symm ▸ hi')
    · exact ha.elim (Memory.read_writeList_below _ _ _ _) fun ha =>
        Memory.read_writeList_above _ _ _ _ (by rw [State.setTurns_dstCap, hlen]; omega)

/-- Settles O60, by the branches of a pass. -/
theorem encoderPassFollowsTheBestMatch : Obligations.EncoderPassFollowsTheBestMatch := by
  intro s e ts hp hc hi
  obtain ⟨-, hr⟩ := hi.busy_work _ hp
  refine ⟨fun hlt hacc => ?_, fun hlt hrej hflush => ?_, fun hlt hrej hjoin => ?_, fun hend => ?_⟩
  · exact step_emits (step_scan hp hc hlt (scanStep_accept _ _ _ _ hacc)) hr.wr_le hr.len_eq
  · exact step_emits (step_scan hp hc hlt (scanStep_flush _ _ _ _ hrej hflush)) hr.wr_le hr.len_eq
  · have hstep := step_scan hp hc hlt (scanStep_join _ _ _ _ hrej hjoin)
    exact hstep.trans (congrArg Host.Outcome.next ((s.setTurns ts).encodeEmit_of_fits [] _ hr.wr_le))
  · have hstep := step_encoding hp hc
    rw [State.encodeNext, if_neg (Nat.not_lt.mpr (Nat.le_of_eq hend.symm)), State.finish, hr.len_eq, reg_ofNat_toNat] at hstep
    exact hstep

end Sys2Proof.Machine
end

section
/-! The decoder, statement by statement: the header, the fetch, the two token kinds with their checks, the end of the
stream, and the container of an encoder (42_decoder.md R86 to R96). -/

namespace Sys2Proof.Machine

/-! ## The container of an encoder -/

/-- Settles O34: the source reads as the container, of which the decoder's function gives the encoder's input. -/
theorem decodeOfEncodedBytesIsTheInput : Obligations.DecodeOfEncodedBytesIsTheInput := by
  intro magic inp src len cap hl hc cont hsrc
  exact decodeOutputs_encodeStream magic inp src len cap hl hc (readRange_eq_of_getElem src cont hsrc)

/-! ## The header -/

/-- A header that passes sets the working registers (42_decoder.md R86, R88). -/
theorem State.decodeBegin_of_headerOk {s : State} (h : s.headerOk = true) :
    s.decodeBegin = s.setWork (.decoding
      { len := s.srcLen.toNat, decl := s.declaredLen, bound := min s.declaredLen s.dstCap.toNat,
        rd := Config.hdrLen, wr := 0, p := Config.hdrLen, tok := 0 }) :=
  if_pos h

/-- A step in which the core moves in a DECODE before its header check makes the check. -/
theorem step_decodeStart {s : State} {ts : List Turn} (hp : s.phase = .busy .decodeStart) (hc : s.CoreMoves ts) :
    step s = .next (s.setTurns ts).decodeBegin := by
  rw [step_of_coreMoves s ts hc]
  simp only [coreTurn, State.setTurns_phase, hp]

/-- Settles O29: the check passes, so the step sets the working registers. -/
theorem decodeBeginsAfterTheHeader : Obligations.DecodeBeginsAfterTheHeader := by
  intro s ts hp hc hlen hmagic decl
  have hok : (s.setTurns ts).headerOk = true := (headerOk_iff s.params.magic s.src.read s.srcLen.toNat).mpr ⟨hlen, hmagic⟩
  have hdecl : s.declaredLen = decl := rd16_toNat (s.src.read 5) (s.src.read 6)
  have hstep := step_decodeStart hp hc
  rw [State.decodeBegin_of_headerOk hok] at hstep
  exact ⟨_, hstep, rfl, hdecl, congrArg (min · s.dstCap.toNat) hdecl, rfl, rfl⟩

/-- DECODE of a container whose header fails its check writes and reports nothing (42_decoder.md R87). -/
theorem decodeOutputs_of_badHeader (magic : Vector Byte 5) (src : Nat → Byte) (len cap : Nat)
    (h : ¬ headerOk magic src len = true) : decodeOutputs magic src len cap = .nothing .badContainer :=
  if_neg h

/-- Settles O28: a started DECODE comes to the outputs of its function, which are nothing. -/
theorem decodeRefusesABadHeader : Obligations.DecodeRefusesABadHeader := by
  intro s irqEn hp hm hbad
  have hrun := decodeStart_runsTo s irqEn
  rw [decodeOutputs_of_badHeader _ _ _ _ (mt (headerOk_iff _ _ _).mp hbad), State.commandDone, ← hp] at hrun
  exact ⟨_, exec_decode_idle s irqEn hp hm, hrun⟩

/-! ## The fetch and the end of the stream -/

/-- A step in which the core moves in a running DECODE is one pass of the token loop. -/
theorem step_decoding {s : State} {d : DecRegs} {ts : List Turn} (hp : s.phase = .busy (.decoding d)) (hc : s.CoreMoves ts) :
    step s = tokenTurn (s.setTurns ts) d := by
  rw [step_of_coreMoves s ts hc]
  simp only [coreTurn, State.setTurns_phase, hp]

/-- With a whole token left, the pass executes it after the fetch (42_decoder.md R89). -/
theorem tokenTurn_of_token (s : State) (d : DecRegs) (h : d.rd + 2 ≤ d.len) :
    tokenTurn s d =
      exec (decodeToken (tokenAt s.src.read d.rd)) (s.setWork (.decoding (fetchedRegs s.src.read d))) := by
  rw [tokenTurn, if_pos (by omega), if_neg (by omega)]

/-- A single byte left is a truncated token (42_decoder.md R89). -/
theorem tokenTurn_of_oneByte (s : State) (d : DecRegs) (h : d.rd + 1 = d.len) : tokenTurn s d = .next (s.decodeTrunc d) := by
  rw [tokenTurn, if_pos (by omega), if_pos (by omega)]

/-- No byte left is the end of the stream (42_decoder.md R95). -/
theorem tokenTurn_of_end (s : State) (d : DecRegs) (h : d.rd = d.len) : tokenTurn s d = .next (s.decodeEnd d) :=
  if_neg (Nat.not_lt.mpr (Nat.le_of_eq h.symm))

/-- Settles O8: in each of the three turns the core moves, and its pass executes the token. -/
theorem stepRunsTheTokenAtTheReadCursor : Obligations.StepRunsTheTokenAtTheReadCursor := by
  intro s d ts hp hl t w
  have run : ∀ us, s.CoreMoves us → step s = exec (decodeToken t) { s with phase := w, turns := us } := fun us hc =>
    (step_decoding hp hc).trans (tokenTurn_of_token _ d hl)
  have hb : s.busy = true := s.busy_iff.mpr ⟨_, hp⟩
  exact ⟨fun hts => run s.turns (.inl ⟨hts, hts⟩), fun hts => run ts (.inr (.inl hts)),
    fun hts => run s.turns (.inr (.inr ⟨⟨ts, hts⟩, hb, rfl⟩))⟩

/-- Settles O30: the pass stops with the token's offset, which is that of the last byte. -/
theorem singleTrailingByteIsTruncToken : Obligations.SingleTrailingByteIsTruncToken := by
  intro s d ts hp hc hone
  have hstep := (step_decoding hp hc).trans (tokenTurn_of_oneByte _ d hone)
  rw [← hone, Nat.add_sub_cancel]
  exact hstep

/-- LEN_MISMATCH of an OK says that the lengths differ (42_decoder.md R95). -/
theorem lengthsDiffer_iff (wr decl : Nat) : lengthsDiffer wr decl = true ↔ wr ≠ decl := bne_iff_ne

/-- Settles O31: the pass ends the command, and the invariant after the step says what a mismatch means. -/
theorem streamEndCompletesWithOk : Obligations.StreamEndCompletesWithOk := by
  intro s d ts hp hc hi hend
  obtain ⟨-, hr⟩ := hi.busy_work _ hp
  have hstep := (step_decoding hp hc).trans (tokenTurn_of_end _ d hend)
  have hpos : BitVec.ofNat 32 d.rd = s.srcLen := by rw [hend, hr.len_eq, reg_ofNat_toNat]
  rw [State.decodeEnd, State.finish, hpos] at hstep
  have hinv := everyStepKeepsTheInvariant s _ hi hstep
  exact ⟨_, hstep, rfl, lengthsDiffer_iff d.wr d.decl, fun h => (hinv.mismatch h).2⟩

/-! ## LIT -/

theorem exec_lit_decoding {s : State} {d : DecRegs} (n : BitVec 11) (hp : s.phase = .busy (.decoding d)) :
    exec (.lit n) s = .next (s.literal d n.toNat) := by
  show execLit n s = _
  rw [execLit, hp]

/-- Raw bytes that the container does not hold (42_decoder.md R91). -/
theorem State.literal_of_short (s : State) (d : DecRegs) (n : Nat) (h : d.len - d.rd < n) :
    s.literal d n = s.decodeStop d .truncLiteral :=
  if_pos h

/-- Raw bytes that do not fit the bound (42_decoder.md R91). -/
theorem State.literal_of_overrun (s : State) (d : DecRegs) (n : Nat) (h : n ≤ d.len - d.rd) (hb : d.bound < d.wr + n) :
    s.literal d n = s.decodeStop d .outOverrun := by
  rw [State.literal, if_neg (Nat.not_lt.mpr h), if_pos hb]

/-- Raw bytes that pass both checks are copied (42_decoder.md R90). -/
theorem State.literal_of_fits (s : State) (d : DecRegs) (n : Nat) (h : n ≤ d.len - d.rd) (hb : d.wr + n ≤ d.bound) :
    s.literal d n = (s.setDst (s.litDst d n)).setWork (.decoding (litRegs d n)) := by
  rw [State.literal, if_neg (Nat.not_lt.mpr h), if_neg (Nat.not_lt.mpr hb)]

/-- Each of the n bytes from `wr` up is the raw byte at its place (42_decoder.md R90). -/
theorem State.litDst_read (s : State) (d : DecRegs) (n i : Nat) (h : i < n) :
    (s.litDst d n).read (d.wr + i) = s.src.read (d.rd + i) := by
  rw [State.litDst, Memory.read_writeList, if_pos (Nat.le_add_right _ _), Nat.add_sub_cancel_left, readRange_getElem?,
    if_pos h, Option.getD_some]

/-- A literal writes no other byte. -/
theorem State.litDst_read_outside (s : State) (d : DecRegs) (n a : Nat) (h : a < d.wr ∨ d.wr + n ≤ a) :
    (s.litDst d n).read a = s.dst.read a :=
  h.elim (Memory.read_writeList_below _ _ _ _)
    fun h => Memory.read_writeList_above _ _ _ _ (by rwa [readRange_length])

/-- Settles O23, by what a literal that passes its checks writes. -/
theorem litCopiesTheRawBytes : Obligations.LitCopiesTheRawBytes := by
  intro s d n hp hn hb
  have hexec := exec_lit_decoding n hp
  rw [s.literal_of_fits d n.toNat hn hb] at hexec
  exact ⟨_, hexec, rfl, s.litDst_read d n.toNat, s.litDst_read_outside d n.toNat⟩

/-- Settles O24, check by check. -/
theorem litChecksEndTheCommand : Obligations.LitChecksEndTheCommand := by
  intro s d n hp stopped
  have hexec := exec_lit_decoding n hp
  exact ⟨fun hn => hexec.trans (congrArg _ (s.literal_of_short d n.toNat hn)),
    fun hn hb => hexec.trans (congrArg _ (s.literal_of_overrun d n.toNat hn hb))⟩

/-! ## BREF -/

theorem exec_bref_decoding {s : State} {d : DecRegs} (count : BitVec 5) (jump : BitVec 11)
    (hp : s.phase = .busy (.decoding d)) : exec (.bref count jump) s = .next (s.backRef d count.toNat jump.toNat) := by
  show execBref count jump s = _
  rw [execBref, hp]

/-- A jump of 0, or to before the output (42_decoder.md R93). -/
theorem State.backRef_of_badJump (s : State) (d : DecRegs) (count jump : Nat) (h : jump = 0 ∨ d.wr < jump) :
    s.backRef d count jump = s.decodeStop d .badDistance :=
  if_pos h

/-- A copy that does not fit the bound (42_decoder.md R93). -/
theorem State.backRef_of_overrun (s : State) (d : DecRegs) (count jump : Nat) (hj : 1 ≤ jump) (hw : jump ≤ d.wr)
    (hb : d.bound < d.wr + count) : s.backRef d count jump = s.decodeStop d .outOverrun := by
  rw [State.backRef, if_neg (by omega), if_pos hb]

/-- A back-reference that passes both checks copies byte by byte (42_decoder.md R92). -/
theorem State.backRef_of_fits (s : State) (d : DecRegs) (count jump : Nat) (hj : 1 ≤ jump) (hw : jump ≤ d.wr)
    (hb : d.wr + count ≤ d.bound) :
    s.backRef d count jump =
      (s.setDst (s.dst.copyBack d.wr jump count)).setWork (.decoding { d with wr := d.wr + count }) := by
  rw [State.backRef, if_neg (by omega), if_neg (Nat.not_lt.mpr hb)]

/-- Settles O25: the closed form of the copy, its byte-serial form, and its frame. -/
theorem brefCopiesByteSerially : Obligations.BrefCopiesByteSerially := by
  intro s d count jump hp hj hw hb
  have hexec := exec_bref_decoding count jump hp
  rw [s.backRef_of_fits d count.toNat jump.toNat hj hw hb] at hexec
  exact ⟨_, hexec, rfl,
    fun i hi => ⟨Memory.read_copyBack_closed s.dst d.wr jump.toNat count.toNat i hj hw hi,
      Memory.read_copyBack_back s.dst d.wr jump.toNat count.toNat i hj hw hi⟩,
    Memory.read_copyBack_outside s.dst d.wr jump.toNat count.toNat⟩

/-- Settles O26, check by check. -/
theorem brefChecksEndTheCommand : Obligations.BrefChecksEndTheCommand := by
  intro s d count jump hp stopped
  have hexec := exec_bref_decoding count jump hp
  exact ⟨fun hj => hexec.trans (congrArg _ (s.backRef_of_badJump d count.toNat jump.toNat hj)),
    fun hj hw hb => hexec.trans (congrArg _ (s.backRef_of_overrun d count.toNat jump.toNat hj hw hb))⟩

end Sys2Proof.Machine
end

section
/-! The estimators: the sizing formula, the declared length, and the length of what an ENCODE wrote (43_estimators.md R97
to R100). -/

namespace Sys2Proof.Machine

/-! ## EST_COMP -/

theorem exec_estComp_idle (s : State) (irqEn : Bool) (hp : s.phase = .idle) (hm : s.portsMeet = false) :
    exec (.estComp irqEn) s = .next (s.start opEstComp irqEn .estComp) :=
  exec_commandInstr_idle opEstComp irqEn s hp hm

/-- EST_COMP of an unrepresentable length answers no length (43_estimators.md R97). -/
theorem estCompOutputs_unrepresentable (len : Nat) (h : Config.maxOrigLen < len) :
    estCompOutputs len = .nothing .unrepresentable := if_pos h

/-- EST_COMP of a representable length answers the formula's value (43_estimators.md R97). -/
theorem estCompOutputs_of_le (len : Nat) (h : len ≤ Config.maxOrigLen) :
    estCompOutputs len = { Outputs.nothing .ok with outLen := compressedEstimate len, declLen := len } :=
  if_neg (Nat.not_lt.mpr h)

/-- The formula is largest at the largest representable length (43_estimators.md R97). -/
theorem compressedEstimate_le (len : Nat) (h : len ≤ 65535) : compressedEstimate len ≤ 65610 := by
  unfold compressedEstimate
  omega

/-- Settles O13, by whether the length is representable; the estimate is at most 65610, so OUT_LEN holds it. -/
theorem estCompGivesTheSizingFormula : Obligations.EstCompGivesTheSizingFormula := by
  refine ⟨rfl, rfl, fun s irqEn hp hm => ⟨_, exec_estComp_idle s irqEn hp hm, ?_⟩⟩
  have hrun := estCompStart_runsTo s irqEn
  refine ⟨fun hl => ?_, fun hl => ⟨_, hrun, ?_⟩⟩
  · rw [estCompOutputs_unrepresentable _ hl, State.commandDone, ← hp] at hrun
    exact hrun
  · have hle := compressedEstimate_le s.srcLen.toNat hl
    have hval : (BitVec.ofNat 32 (compressedEstimate s.srcLen.toNat)).toNat = compressedEstimate s.srcLen.toNat :=
      (BitVec.toNat_ofNat _ _).trans (Nat.mod_eq_of_lt (Nat.lt_of_le_of_lt hle (by decide)))
    rw [estCompOutputs_of_le _ hl, State.commandDone, ← hp]
    simp only [reg_ofNat_toNat]
    exact ⟨rfl, hval, hval.trans_le hle, fun h => by rw [h]; rfl, fun h => by rw [h]; rfl, fun h => by rw [h]; rfl⟩

/-! ## EST_DECOMP -/

theorem exec_estDecomp_idle (s : State) (irqEn : Bool) (hp : s.phase = .idle) (hm : s.portsMeet = false) :
    exec (.estDecomp irqEn) s = .next (s.start opEstDecomp irqEn .estDecomp) :=
  exec_commandInstr_idle opEstDecomp irqEn s hp hm

/-- EST_DECOMP of a header that passes its check answers the declared length (43_estimators.md R98). -/
theorem estDecompOutputs_of_headerOk (magic : Vector Byte 5) (src : Nat → Byte) (len : Nat)
    (h : headerOk magic src len = true) :
    estDecompOutputs magic src len =
      { Outputs.nothing .ok with outLen := declaredLen src, declLen := declaredLen src } := if_pos h

/-- EST_DECOMP of a header that fails its check answers no length (43_estimators.md R98). -/
theorem estDecompOutputs_of_badHeader (magic : Vector Byte 5) (src : Nat → Byte) (len : Nat)
    (h : ¬ headerOk magic src len = true) : estDecompOutputs magic src len = .nothing .badContainer := if_neg h

/-- A register holds the declared length as the header's two bytes, zero-extended (10_state.md R29). -/
theorem reg_ofNat_declaredLen (src : Nat → Byte) :
    BitVec.ofNat 32 (declaredLen src) = (rd16 (src 5) (src 6)).setWidth 32 :=
  BitVec.ofNat_toNat 32 (rd16 (src 5) (src 6))

/-- Settles O14, by whether the header passes its check. -/
theorem estDecompGivesTheDeclaredLength : Obligations.EstDecompGivesTheDeclaredLength := by
  refine ⟨rfl, rfl, fun s irqEn hp hm => ⟨_, exec_estDecomp_idle s irqEn hp hm, ?_⟩⟩
  have hrun := estDecompStart_runsTo s irqEn
  refine ⟨fun hok => ?_, fun hbad => ?_⟩
  · rw [estDecompOutputs_of_headerOk _ _ _ ((headerOk_iff _ _ _).mpr hok), State.commandDone, ← hp] at hrun
    simp only [reg_ofNat_declaredLen] at hrun
    exact hrun
  · rw [estDecompOutputs_of_badHeader _ _ _ (mt (headerOk_iff _ _ _).mp hbad), State.commandDone, ← hp] at hrun
    exact hrun

/-! ## EST_DECOMP of what an ENCODE wrote -/

/-- An ENCODE with room for the header has written it, whether or not the rest of the container fits (41_encoder.md R73,
R83). -/
theorem encodeOutputs_take_header (magic : Vector Byte 5) (src : Nat → Byte) (len cap : Nat) (hl : len ≤ Config.maxOrigLen)
    (h : Config.hdrLen ≤ (encodeOutputs magic src len cap).outLen) :
    (encodeOutputs magic src len cap).written.take Config.hdrLen = headerBytes magic len := by
  have hcap : Config.hdrLen ≤ cap := Nat.le_trans h (encodeOutputs_length magic src len cap).2
  rw [encodeOutputs, if_neg (Nat.not_lt.mpr hl)]
  show ((encodeStream magic src len).take cap).take Config.hdrLen = headerBytes magic len
  rw [List.take_take, Nat.min_eq_left hcap, encodeStream, List.take_left' (headerBytes_length magic len)]

/-- DST after a completion begins with what the command wrote. -/
theorem State.commandDone_dst_readRange (s : State) (op : BitVec 2) (irqEn : Bool) (o : Outputs) (n : Nat)
    (h : n ≤ o.written.length) : readRange (s.commandDone op irqEn o).dst.read 0 n = o.written.take n := by
  have hlen : (o.written.take n).length = n := List.length_take_of_le h
  rw [← readRange_eq_of_getElem (s.commandDone op irqEn o).dst.read (o.written.take n) fun i hi => ?_, hlen]
  rw [List.getElem_take, State.commandDone_dst_read, List.getElem?_eq_getElem, Option.getD_some]

/-- A completed ENCODE that reports at least 7 bytes leaves the header at the front of DST. -/
theorem encodeDone_dst_header (s : State) (irqEn : Bool) (hl : s.srcLen.toNat ≤ Config.maxOrigLen) :
    let o := encodeOutputs s.params.magic s.src.read s.srcLen.toNat s.dstCap.toNat
    Config.hdrLen ≤ o.outLen →
      readRange (s.commandDone opEncode irqEn o).dst.read 0 Config.hdrLen = headerBytes s.params.magic s.srcLen.toNat := by
  intro o h
  have hwritten : o.written.length = o.outLen := (encodeOutputs_length _ _ _ _).1
  rw [State.commandDone_dst_readRange _ _ _ _ _ (h.trans_eq hwritten.symm), encodeOutputs_take_header _ _ _ _ hl h]

/-- Settles O36: with at least 7 bytes written the header stands at the front of SRC, so the check passes and the declared
length is the input's. -/
theorem estDecompOfAnEncodedContainer : Obligations.EstDecompOfAnEncodedContainer := by
  intro s irqEn hp hm hl
  refine ⟨_, _, exec_encode_idle s irqEn hp hm, encodeStart_runsTo s irqEn, rfl, ?_⟩
  intro hseven s' irqEn' hp' hm' hparams hlen hsrc
  have hreported := hseven.trans ((BitVec.toNat_ofNat _ _).trans_le (Nat.mod_le _ _))
  have hheader : readRange s'.src.read 0 Config.hdrLen = headerBytes s.params.magic s.srcLen.toNat :=
    (readRange_congr _ _ 0 _ fun i _ hi => hsrc i (hi.trans_le ((Nat.zero_add 7).trans_le hseven))).trans
      (encodeDone_dst_header s irqEn hl hreported)
  obtain ⟨hok, hdecl⟩ := headerOk_of_headerBytes s.params.magic s'.src.read s.srcLen.toNat s'.srcLen.toNat hl
    (hlen ▸ hseven) hheader
  have hrun' := estDecompStart_runsTo s' irqEn'
  rw [hparams, estDecompOutputs_of_headerOk _ _ _ hok, hdecl] at hrun'
  exact ⟨_, _, exec_estDecomp_idle s' irqEn' hp' hm', hrun', rfl, rfl, reg_ofNat_toNat s.srcLen⟩

end Sys2Proof.Machine
end

section
/-! How a step answers and how a command ends: which turns have a next state and which are refused, the result codes of
each command, and the waiting core (60_exceptions.md R101, R107, R115). -/

namespace Sys2Proof.Machine

/-! ## The answer to a host access -/

/-- A write to CTRL with START set is the START of the command of its OP. -/
theorem writeReg_ctrl_start (w : Reg) (s : State) (hs : ctrlStart w = true) :
    writeReg .ctrl w s = startCommand (ctrlOp w) (ctrlIrqEn w) (commandWork (ctrlOp w)) s := by
  simp only [writeReg, writeCtrl, decode, decodeCtrl_start w hs, exec_commandInstr]

/-- The register write is a launch on a machine whose ports meet (70_reset_and_hazards.md R120). -/
def State.LaunchMeets (s : State) (r : RegName) (v : Reg) : Prop :=
  r = .ctrl ∧ ctrlStart v = true ∧ s.portsMeet = true

/-- A register write in IDLE that is no launch with meeting ports has a next state. -/
theorem writeReg_hasNext {r : RegName} {v : Reg} {s : State} (hp : s.phase = .idle) (h : ¬ s.LaunchMeets r v) :
    ∃ t, writeReg r v s = .next t := by
  cases r with
  | ctrl =>
    cases hs : ctrlStart v with
    | false => exact ⟨_, writeReg_ctrl_noStart v s hs⟩
    | true =>
      have hm : s.portsMeet = false := Bool.eq_false_iff.mpr fun hm => h ⟨rfl, hs, hm⟩
      exact ⟨_, (writeReg_ctrl_start v s hs).trans (startCommand_idle _ _ _ s hp hm)⟩
  | status | srcLen | dstCap | outLen | declLen | rdPos | unmapped => exact ⟨_, rfl⟩

/-- A launch with meeting ports is refused (70_reset_and_hazards.md R120). -/
theorem writeReg_refused {r : RegName} {v : Reg} {s : State} (hp : s.phase = .idle) (h : s.LaunchMeets r v) :
    writeReg r v s = .refused .portsOverlap := by
  obtain ⟨rfl, hs, hm⟩ := h
  rw [writeReg_ctrl_start v s hs, startCommand_refused _ _ _ s hp hm]

/-- The register writes a host may make: aligned ones, but no launch in IDLE with meeting ports. -/
theorem State.allows_writeReg (s : State) (off : BitVec 5) (width : Nat) (v : Reg) :
    s.Allows (.writeReg off width v) ↔
      regAccessOk off width = true ∧ (s.busy = false → ¬ s.LaunchMeets (regAt off) v) := by
  simp [State.Allows, State.LaunchMeets]

/-- An allowed host access has a next state, any other is refused (10_state.md R16, 70_reset_and_hazards.md R119, R120). -/
theorem hostTurn_answer (a : HostAccess) (s : State) :
    (s.Allows a ∧ ∃ t, hostTurn a s = .next t) ∨ (¬ s.Allows a ∧ ∃ r, hostTurn a s = .refused r) := by
  cases a with
  | readReg off width =>
    by_cases hok : regAccessOk off width = true
    · exact .inl ⟨hok, _, if_pos hok⟩
    · exact .inr ⟨hok, _, if_neg hok⟩
  | writeReg off width v =>
    rw [s.allows_writeReg]
    by_cases hok : regAccessOk off width = true
    · rw [hostTurn, if_pos hok]
      cases hb : s.busy with
      | true => exact .inl ⟨⟨hok, fun h => by cases h⟩, s, writeRegBusy_eq _ v s hb⟩
      | false =>
        have hp := s.not_busy_iff.mp hb
        by_cases hl : s.LaunchMeets (regAt off) v
        · exact .inr ⟨fun h => h.2 rfl hl, _, writeReg_refused hp hl⟩
        · exact .inl ⟨⟨hok, fun _ => hl⟩, writeReg_hasNext hp hl⟩
    · exact .inr ⟨fun h => hok h.1, _, if_neg hok⟩
  | writeSrc o v | writeDst o v =>
    cases hb : s.busy with
    | true => exact .inr ⟨by simp [State.Allows, hb], _, if_pos hb⟩
    | false => exact .inl ⟨hb, _, if_neg (by simp [hb])⟩
  | readDst o =>
    refine .inl ⟨trivial, ?_⟩
    rw [hostTurn]
    split
    · exact ⟨_, rfl⟩
    · exact ⟨_, rfl⟩

/-! ## The answer of a step -/

/-- A step in which the core moves has a next state. -/
theorem step_coreMoves_hasNext {s : State} {ts : List Turn} (hc : s.CoreMoves ts) : ∃ t, step s = .next t := by
  obtain ⟨t, ht, -⟩ := coreTurn_coreView (s.setTurns ts)
  exact ⟨t, (step_of_coreMoves s ts hc).trans ht⟩

/-- A step of an allowed turn has a next state, any other is refused. -/
theorem step_answer (s : State) :
    (s.TurnAllowed ∧ ∃ t, step s = .next t) ∨ (¬ s.TurnAllowed ∧ ∃ r, step s = .refused r) := by
  unfold State.TurnAllowed
  cases hts : s.turns with
  | nil => exact .inl ⟨trivial, step_coreMoves_hasNext (.inl ⟨hts, rfl⟩)⟩
  | cons turn ts =>
    cases turn with
    | host a =>
      rw [step_of_hostNext hts]
      exact hostTurn_answer a (s.setTurns ts)
    | core => exact .inl ⟨trivial, step_coreMoves_hasNext (.inr (.inl hts))⟩
    | wait =>
      cases hb : s.busy with
      | true => exact .inl ⟨trivial, step_coreMoves_hasNext (.inr (.inr ⟨⟨ts, hts⟩, hb, rfl⟩))⟩
      | false => exact .inl ⟨trivial, s.setTurns ts, by simp [step, takeTurn, hts, hb]⟩
    | reset => exact .inl ⟨trivial, (s.setTurns ts).resetTurn, by simp only [step, takeTurn, hts]⟩
    | portFailure => exact .inr ⟨id, .platformFailure, by simp only [step, takeTurn, hts]⟩

/-- Settles O47: a step answers a next state where the turn is allowed, a refusal where it is not, and never a fault. -/
theorem allowedTurnsAlwaysHaveANextState : Obligations.AllowedTurnsAlwaysHaveANextState := by
  intro s
  rcases step_answer s with ⟨-, t, ht⟩ | ⟨hn, r, hr⟩
  · exact ⟨fun _ hf => (nomatch ht.symm.trans hf), fun _ => ⟨t, ht⟩⟩
  · exact ⟨fun _ hf => (nomatch hr.symm.trans hf), fun h => absurd h hn⟩

/-! ## The end of a command, and IDLE -/

/-- Settles O51: the step is the command's completion, and what that reports depends on OP. -/
theorem resultCodesOfEachCommand : Obligations.ResultCodesOfEachCommand := by
  intro s t hi h hb ht hd
  obtain ⟨ts, m, code, o, d, r, b, -, rfl, he⟩ := step_completes hi h hb ht hd
  exact ⟨he.encode, he.decode, he.estComp, he.estDecomp⟩

/-- Settles O59: the step is the core's turn, and an IDLE core waits. -/
theorem idleCoreChangesNothing : Obligations.IdleCoreChangesNothing :=
  fun s hp hts => (step_core s hts).trans (coreTurn_idle s hp)

end Sys2Proof.Machine
end

section
/-! The launch refused on meeting ports, and reset in both phases (70_reset_and_hazards.md R116, R117, R120). -/

namespace Sys2Proof.Machine

/-! ## The launch on meeting ports -/

/-- A port reaches the offsets below its size that are below 2^32 (00_scope.md R8). -/
theorem lt_portReach_iff (a size : Nat) : a < portReach size ↔ a < size ∧ a < 2 ^ 32 := lt_min_iff

/-- The four commands of a given IRQ_EN are the commands of the OP codes. -/
theorem eq_commandInstr_of_command {i : Instr} {irqEn : Bool}
    (h : i = .encode irqEn ∨ i = .decode irqEn ∨ i = .estComp irqEn ∨ i = .estDecomp irqEn) :
    ∃ op, i = commandInstr op irqEn := by
  rcases h with rfl | rfl | rfl | rfl
  · exact ⟨opEncode, rfl⟩
  · exact ⟨opDecode, rfl⟩
  · exact ⟨opEstComp, rfl⟩
  · exact ⟨opEstDecomp, rfl⟩

/-- Settles O12: each command is the START of its OP, which tests the ports alone, and the test finds every shared byte. -/
theorem launchRefusedExactlyWhenPortsMeet : Obligations.LaunchRefusedExactlyWhenPortsMeet := by
  intro s irqEn i hp hi shared
  obtain ⟨op, rfl⟩ := eq_commandInstr_of_command hi
  have hm : s.portsMeet = true ↔ shared := by
    simp only [State.portsMeet, portsMeet_iff, lt_portReach_iff, and_assoc, shared]
  constructor
  · intro h
    rw [exec_commandInstr, startCommand_refused _ _ _ s hp (hm.mpr h)]
  · intro h
    exact ⟨_, exec_commandInstr_idle op irqEn s hp (Bool.eq_false_iff.mpr (mt hm.mp h))⟩

/-! ## A reset turn -/

theorem step_of_resetNext {s : State} {ts : List Turn} (hts : s.turns = .reset :: ts) :
    step s = .next (s.setTurns ts).resetTurn := by
  simp only [step, takeTurn, hts]

@[simp] theorem State.setTurns_writeRange (s : State) (ts : List Turn) : (s.setTurns ts).writeRange = s.writeRange := rfl

@[simp] theorem State.resetTurn_dst (s : State) : s.resetTurn.dst = s.dst.drawRange 0 s.draws s.writeRange := rfl

theorem State.writeRange_of_idle {s : State} (hp : s.phase = .idle) : s.writeRange = 0 := by
  rw [State.writeRange, hp]

/-- The write range of a running command, by the command that CTRL.OP names (70_reset_and_hazards.md R117). A DECODE not
past a bad header is left out. -/
theorem State.Inv.writeRange_cases {s : State} {w : Work} (hi : s.Inv) (hp : s.phase = .busy w) :
    (s.op = opEncode ∧ s.writeRange = s.dstCap.toNat) ∨
    (s.op = opDecode ∧
      (s.headerOk = true ∨ (∃ d, w = .decoding d) → s.writeRange = min s.declaredLen s.dstCap.toNat)) ∨
    ((s.op = opEstComp ∨ s.op = opEstDecomp) ∧ s.writeRange = 0) := by
  have hw := hi.busy_work w hp
  rw [State.writeRange, hp]
  cases w with
  | encodeStart => exact .inl ⟨hw, rfl⟩
  | encoding e => exact .inl ⟨hw.1, rfl⟩
  | decodeStart =>
    refine .inr (.inl ⟨hw, fun h => ?_⟩)
    obtain hk | ⟨d, hd⟩ := h
    · exact if_pos hk
    · cases hd
  | decoding d =>
    obtain ⟨hop, hr⟩ := hw
    exact .inr (.inl ⟨hop, fun _ => hr.decl_eq ▸ hr.bound_eq⟩)
  | estComp => exact .inr (.inr ⟨.inl hw, rfl⟩)
  | estDecomp => exact .inr (.inr ⟨.inr hw, rfl⟩)

/-- Settles O44: the draws are the write range of the command that CTRL.OP names. -/
theorem resetWhileBusyAbandonsTheCommand : Obligations.ResetWhileBusyAbandonsTheCommand := by
  intro s w ts hp hi hts header
  have hk : header → s.headerOk = true := (headerOk_iff _ _ _).mpr
  refine ⟨_, s.writeRange, step_of_resetNext hts, rfl, ?_, ?_, ?_, fun a ha => ?_, fun a ha => ?_⟩
  · intro hop
    obtain ⟨-, hn⟩ | ⟨hd, -⟩ | ⟨he, -⟩ := hi.writeRange_cases hp
    · exact hn
    · simp [hop, opEncode, opDecode] at hd
    · simp [hop, opEncode, opEstComp, opEstDecomp] at he
  · intro hop h
    obtain ⟨he, -⟩ | ⟨-, hn⟩ | ⟨he, -⟩ := hi.writeRange_cases hp
    · simp [hop, opEncode, opDecode] at he
    · exact hn (h.imp_left hk)
    · simp [hop, opDecode, opEstComp, opEstDecomp] at he
  · intro hop
    obtain ⟨he, -⟩ | ⟨hd, -⟩ | ⟨-, hn⟩ := hi.writeRange_cases hp
    · simp [he, opEncode, opEstComp, opEstDecomp] at hop
    · simp [hd, opDecode, opEstComp, opEstDecomp] at hop
    · exact hn
  · simp [Memory.read_drawRange, ha]
  · simp [Memory.read_drawRange, ha]

theorem State.clearRegs_ctrlWord (s : State) : s.clearRegs.ctrlWord = 0 := by
  simp [State.ctrlWord_eq]

theorem State.clearRegs_statusWord (s : State) : s.clearRegs.statusWord = 0 := by
  simp [State.statusWord_eq, Result.code]

/-- Settles O43: reset is `State.clearRegs`, whatever the other fields hold, and in IDLE no byte of DST is drawn. -/
theorem resetClearsEveryRegister : Obligations.ResetClearsEveryRegister := by
  unfold Obligations.ResetClearsEveryRegister
  intro cleared
  have hc : ∀ s : State, cleared s.clearRegs := fun s =>
    ⟨s.clearRegs_ctrlWord, s.clearRegs_statusWord, rfl, rfl, rfl, rfl, rfl, rfl, rfl, rfl, rfl, rfl, rfl, rfl, rfl⟩
  refine ⟨hc State.reset, fun s ts hp hts => ⟨_, step_of_resetNext hts, hc _, rfl, ?_, rfl⟩⟩
  rw [State.resetTurn_dst, State.setTurns_writeRange, State.writeRange_of_idle hp]
  rfl

/-! ## The invariant at reset -/

theorem Memory.nil_wf : Memory.wf [] := ⟨.nil, nofun⟩

theorem Memory.nil_inPort : Memory.inPort [] := nofun

/-- Settles O45: no command runs, both memories are empty, DECL_LEN and LEN_MISMATCH are 0. -/
theorem invariantHoldsAtReset : Obligations.InvariantHoldsAtReset :=
  State.inv_of_idle rfl ⟨Memory.nil_wf, Memory.nil_inPort⟩ ⟨Memory.nil_wf, Memory.nil_inPort⟩ (Nat.zero_le _) nofun

end Sys2Proof.Machine
end
